-- ==== Sys2Proof/Word.lean ====
section
/-!
DEFINITION. The words of the hardware (`00_scope.md` R7, Table R5): every value is unsigned,
bit 0 is the least significant bit.
-/

namespace Sys2Proof

/-- A 4-bit field of an opcode: a register number `x` or `y`, or a count `n` (R10, R91). -/
abbrev Nibble := BitVec 4

/-- A general register, a timer, a byte of `mem` or of `display` (Table R5). -/
abbrev Byte := BitVec 8

/-- A 12-bit address as an instruction carries it: the field `nnn` (R91). -/
abbrev Addr := BitVec 12

/-- An opcode, and the 16-bit registers `pc`, `I` and the stack slots (Table R5). -/
abbrev Word := BitVec 16

end Sys2Proof
end

