-- ==== Sys2Proof/Syntax.lean ====
section
/-!
DEFINITION. The instructions: one constructor per row of Table R97 (`30_encoding.md`), in the
table's order, each with the fields of its format (Table R92). Immediates are kept exactly as
extracted (R93).
-/

namespace Sys2Proof

/-- The 35 instructions. The docstring of each constructor gives its pattern and its rule. -/
inductive Instr where
  /-- `00E0` CLS (R220). -/
  | cls
  /-- `00EE` RET (R141). -/
  | ret
  /-- `0nnn` SYS nnn, executed as a jump (R142). -/
  | sys (nnn : Addr)
  /-- `1nnn` JP nnn (R143). -/
  | jp (nnn : Addr)
  /-- `2nnn` CALL nnn (R144). -/
  | call (nnn : Addr)
  /-- `3xkk` SE Vx, kk (R146). -/
  | seImm (x : Nibble) (kk : Byte)
  /-- `4xkk` SNE Vx, kk (R147). -/
  | sneImm (x : Nibble) (kk : Byte)
  /-- `5xy0` SE Vx, Vy (R148). -/
  | seReg (x y : Nibble)
  /-- `9xy0` SNE Vx, Vy (R149). -/
  | sneReg (x y : Nibble)
  /-- `6xkk` LD Vx, kk (R172). -/
  | ldImm (x : Nibble) (kk : Byte)
  /-- `7xkk` ADD Vx, kk (R173). -/
  | addImm (x : Nibble) (kk : Byte)
  /-- `8xy0` LD Vx, Vy (R174). -/
  | ldReg (x y : Nibble)
  /-- `8xy1` OR Vx, Vy (R175). -/
  | orReg (x y : Nibble)
  /-- `8xy2` AND Vx, Vy (R176). -/
  | andReg (x y : Nibble)
  /-- `8xy3` XOR Vx, Vy (R177). -/
  | xorReg (x y : Nibble)
  /-- `8xy4` ADD Vx, Vy (R178). -/
  | addReg (x y : Nibble)
  /-- `8xy5` SUB Vx, Vy (R179). -/
  | sub (x y : Nibble)
  /-- `8xy6` SHR Vx, Vy; `y` is decoded and ignored (R180). -/
  | shr (x y : Nibble)
  /-- `8xy7` SUBN Vx, Vy (R181). -/
  | subn (x y : Nibble)
  /-- `8xyE` SHL Vx, Vy; `y` is decoded and ignored (R182). -/
  | shl (x y : Nibble)
  /-- `Annn` LD I, nnn (R200). -/
  | ldI (nnn : Addr)
  /-- `Bnnn` JP V0, nnn (R145). -/
  | jpV0 (nnn : Addr)
  /-- `Cxkk` RND Vx, kk (R183). -/
  | rnd (x : Nibble) (kk : Byte)
  /-- `Dxyn` DRW Vx, Vy, n (R221). -/
  | drw (x y n : Nibble)
  /-- `Ex9E` SKP Vx (R254). -/
  | skp (x : Nibble)
  /-- `ExA1` SKNP Vx (R255). -/
  | sknp (x : Nibble)
  /-- `Fx07` LD Vx, DT (R251). -/
  | ldVxDt (x : Nibble)
  /-- `Fx15` LD DT, Vx (R252). -/
  | ldDtVx (x : Nibble)
  /-- `Fx18` LD ST, Vx (R253). -/
  | ldStVx (x : Nibble)
  /-- `Fx0A` LD Vx, K: the key-wait (R256). -/
  | ldVxK (x : Nibble)
  /-- `Fx1E` ADD I, Vx (R201). -/
  | addI (x : Nibble)
  /-- `Fx29` LD F, Vx (R202). -/
  | ldF (x : Nibble)
  /-- `Fx33` LD B, Vx (R203). -/
  | ldB (x : Nibble)
  /-- `Fx55` LD [I], Vx: store `V0..Vx` (R204). -/
  | ldMemVx (x : Nibble)
  /-- `Fx65` LD Vx, [I]: load `V0..Vx` (R205). -/
  | ldVxMem (x : Nibble)
deriving DecidableEq, Repr

end Sys2Proof
end

