-- ==== Sys2Proof/Decode.lean ====
section
/-!
DEFINITION. The decoder, total on any bytes, which rejects by name (`30_encoding.md` R90 to R99,
`40_step_cycle.md` R123, R124), and the encoder written from the same table (Table R97).
Each constructor's decoding of a word written out from Table R97 is shown in
`Sys2Proof/Tests/Slice0.lean`.
-/

namespace Sys2Proof

/-! ### Fields (Table R91) -/

/-- `c = op[15:12]`, the family nibble. -/
def fieldC (w : Word) : Nibble := w.extractLsb' 12 4

/-- `x = op[11:8]`. -/
def fieldX (w : Word) : Nibble := w.extractLsb' 8 4

/-- `y = op[7:4]`. -/
def fieldY (w : Word) : Nibble := w.extractLsb' 4 4

/-- `n = op[3:0]`. -/
def fieldN (w : Word) : Nibble := w.extractLsb' 0 4

/-- `kk = op[7:0]`. -/
def fieldKK (w : Word) : Byte := w.extractLsb' 0 8

/-- `nnn = op[11:0]`. -/
def fieldNNN (w : Word) : Addr := w.extractLsb' 0 12

/-! ### Decode -/

/-- Why bytes are no instruction: the five groups of unrecognised words of R98, and fewer than
the two bytes every instruction has (R90; a fetch always has two). -/
inductive DecodeReject where
  /-- Fewer than two bytes were given. -/
  | truncated
  /-- `5xyn` with `n` in 1..F (R98 a). -/
  | family5
  /-- `9xyn` with `n` in 1..F (R98 b). -/
  | family9
  /-- `8xyn` with `n` in 8, 9, A, B, C, D, F (R98 c). -/
  | family8
  /-- `Exkk` with `kk` other than 9E and A1 (R98 d). -/
  | familyE
  /-- `Fxkk` with `kk` none of 07, 0A, 15, 18, 1E, 29, 33, 55, 65 (R98 e). -/
  | familyF
deriving DecidableEq, Repr

/-- Family 0: the two fixed words come before `0nnn` (R94). -/
def decodeFamily0 (w : Word) : Instr :=
  if w = 0x00E0#16 then .cls else if w = 0x00EE#16 then .ret else .sys (fieldNNN w)

/-- Family 8 by `n` (R95). -/
def decodeFamily8 (x y n : Nibble) : Except DecodeReject Instr :=
  match n with
  | 0x0#4 => .ok (.ldReg x y)
  | 0x1#4 => .ok (.orReg x y)
  | 0x2#4 => .ok (.andReg x y)
  | 0x3#4 => .ok (.xorReg x y)
  | 0x4#4 => .ok (.addReg x y)
  | 0x5#4 => .ok (.sub x y)
  | 0x6#4 => .ok (.shr x y)
  | 0x7#4 => .ok (.subn x y)
  | 0xE#4 => .ok (.shl x y)
  | _ => .error .family8

/-- Family E by `kk` (R95). -/
def decodeFamilyE (x : Nibble) (kk : Byte) : Except DecodeReject Instr :=
  match kk with
  | 0x9E#8 => .ok (.skp x)
  | 0xA1#8 => .ok (.sknp x)
  | _ => .error .familyE

/-- Family F by `kk` (R95). -/
def decodeFamilyF (x : Nibble) (kk : Byte) : Except DecodeReject Instr :=
  match kk with
  | 0x07#8 => .ok (.ldVxDt x)
  | 0x0A#8 => .ok (.ldVxK x)
  | 0x15#8 => .ok (.ldDtVx x)
  | 0x18#8 => .ok (.ldStVx x)
  | 0x1E#8 => .ok (.addI x)
  | 0x29#8 => .ok (.ldF x)
  | 0x33#8 => .ok (.ldB x)
  | 0x55#8 => .ok (.ldMemVx x)
  | 0x65#8 => .ok (.ldVxMem x)
  | _ => .error .familyF

/-- The instruction a word stands for, or the group of R98 it falls in. Dispatch depends on the
word alone (R124). -/
def decodeWord (w : Word) : Except DecodeReject Instr :=
  let x := fieldX w
  let y := fieldY w
  let n := fieldN w
  let kk := fieldKK w
  let nnn := fieldNNN w
  match fieldC w with
  | 0x0#4 => .ok (decodeFamily0 w)
  | 0x1#4 => .ok (.jp nnn)
  | 0x2#4 => .ok (.call nnn)
  | 0x3#4 => .ok (.seImm x kk)
  | 0x4#4 => .ok (.sneImm x kk)
  | 0x5#4 => if n = 0x0#4 then .ok (.seReg x y) else .error .family5
  | 0x6#4 => .ok (.ldImm x kk)
  | 0x7#4 => .ok (.addImm x kk)
  | 0x8#4 => decodeFamily8 x y n
  | 0x9#4 => if n = 0x0#4 then .ok (.sneReg x y) else .error .family9
  | 0xA#4 => .ok (.ldI nnn)
  | 0xB#4 => .ok (.jpV0 nnn)
  | 0xC#4 => .ok (.rnd x kk)
  | 0xD#4 => .ok (.drw x y n)
  | 0xE#4 => decodeFamilyE x kk
  | _ => decodeFamilyF x kk

/-- Two bytes as a word, the byte at the lower address high (`20_memory.md` R63). -/
def wordOfBytes (hi lo : Byte) : Word := hi ++ lo

/-- The decoder on a stream of bytes: the instruction of the first two and the bytes after
them. The length is always two (R90). -/
def decode (bytes : List Byte) : Except DecodeReject (Instr × List Byte) :=
  match bytes with
  | hi :: lo :: rest =>
    match decodeWord (wordOfBytes hi lo) with
    | .ok i => .ok (i, rest)
    | .error r => .error r
  | _ => .error .truncated

/-! ### Encode (Table R97, Table R92) -/

/-- Format `NNN`. -/
def packNNN (c : Nibble) (nnn : Addr) : Word := c ++ nnn

/-- Formats `XKK` and `X`. -/
def packXKK (c x : Nibble) (kk : Byte) : Word := (c ++ x) ++ kk

/-- Formats `XY` and `XYN`. -/
def packXYN (c x y n : Nibble) : Word := (c ++ x) ++ (y ++ n)

/-- The word of an instruction: its row's pattern with the fields put in. -/
def encode (i : Instr) : Word :=
  match i with
  | .cls => 0x00E0#16
  | .ret => 0x00EE#16
  | .sys nnn => packNNN 0x0#4 nnn
  | .jp nnn => packNNN 0x1#4 nnn
  | .call nnn => packNNN 0x2#4 nnn
  | .seImm x kk => packXKK 0x3#4 x kk
  | .sneImm x kk => packXKK 0x4#4 x kk
  | .seReg x y => packXYN 0x5#4 x y 0x0#4
  | .sneReg x y => packXYN 0x9#4 x y 0x0#4
  | .ldImm x kk => packXKK 0x6#4 x kk
  | .addImm x kk => packXKK 0x7#4 x kk
  | .ldReg x y => packXYN 0x8#4 x y 0x0#4
  | .orReg x y => packXYN 0x8#4 x y 0x1#4
  | .andReg x y => packXYN 0x8#4 x y 0x2#4
  | .xorReg x y => packXYN 0x8#4 x y 0x3#4
  | .addReg x y => packXYN 0x8#4 x y 0x4#4
  | .sub x y => packXYN 0x8#4 x y 0x5#4
  | .shr x y => packXYN 0x8#4 x y 0x6#4
  | .subn x y => packXYN 0x8#4 x y 0x7#4
  | .shl x y => packXYN 0x8#4 x y 0xE#4
  | .ldI nnn => packNNN 0xA#4 nnn
  | .jpV0 nnn => packNNN 0xB#4 nnn
  | .rnd x kk => packXKK 0xC#4 x kk
  | .drw x y n => packXYN 0xD#4 x y n
  | .skp x => packXKK 0xE#4 x 0x9E#8
  | .sknp x => packXKK 0xE#4 x 0xA1#8
  | .ldVxDt x => packXKK 0xF#4 x 0x07#8
  | .ldDtVx x => packXKK 0xF#4 x 0x15#8
  | .ldStVx x => packXKK 0xF#4 x 0x18#8
  | .ldVxK x => packXKK 0xF#4 x 0x0A#8
  | .addI x => packXKK 0xF#4 x 0x1E#8
  | .ldF x => packXKK 0xF#4 x 0x29#8
  | .ldB x => packXKK 0xF#4 x 0x33#8
  | .ldMemVx x => packXKK 0xF#4 x 0x55#8
  | .ldVxMem x => packXKK 0xF#4 x 0x65#8

/-- The word's bytes as they lie in memory, the high byte first (R63). -/
def bytesOfWord (w : Word) : List Byte := [w.extractLsb' 8 8, w.extractLsb' 0 8]

/-- The instruction's bytes as they lie in memory. -/
def encodeBytes (i : Instr) : List Byte := bytesOfWord (encode i)

/-- The word a table row's bits stand for: one 16-bit word, so the bits above the row's `nbits`
(at most 16) are zero and the table's numbering is the word's own. -/
def tableWord (nbits w : Nat) : Word := BitVec.ofNat 16 (w % 2 ^ nbits)

/-- The decoder's answer on the bits of an opcode-table row, laid out in memory order. -/
def decodeTableWord (nbits w : Nat) : Option Instr :=
  match decode (bytesOfWord (tableWord nbits w)) with
  | .ok (i, _) => some i
  | .error _ => none

end Sys2Proof
end

