-- ==== Sys2Proof/Config.lean ====
section
/-!
DEFINITION. The fixed parameters of Table R5 (`00_scope.md`) and the one free value of the
model. The parameters the source leaves open (R6) take the spec's default (log entry 5); each
stands in the definition that uses it, under `Sys2Proof/Machine/`.
-/

namespace Sys2Proof.Config

/-- Bytes of `mem` (Table R5). -/
abbrev memSize : Nat := 4096

/-- The font region is 0x000..0x04F: 16 glyphs of 5 bytes (Table R5, R62). -/
abbrev fontSize : Nat := 80

/-- Program entry and load address (Table R5). -/
abbrev programStart : Nat := 0x200

/-- FREE VALUE. The `RND` byte of the `k`-th step from reset, when the host presents none: "a free
draw of any value 0..255, under no law" (`42_alu.md` R183, log entry 4). It has no body, so nothing
can be proved of its value. -/
opaque randomByte : Nat → Byte

end Sys2Proof.Config
end

