-- ==== Sys2Proof/Machine/Font.lean ====
section
/-!
DEFINITION. The default of the parameter `FONT_TABLE` (`00_scope.md` R6, `10_state.md` R41). The
parameter itself is the argument of `State.resetWith`.
-/

namespace Sys2Proof.Machine

/-- A `FONT_TABLE`: sixteen glyphs of five bytes, glyph `d` at `5*d`, top row first (R41, R62). -/
abbrev FontTable := Vector Byte 80

/-- The glyphs `0`..`F` of the default, in the high four bits of each byte. -/
def defaultGlyphs : List Byte :=
  [0xF0, 0x90, 0x90, 0x90, 0xF0] ++ [0x20, 0x60, 0x20, 0x20, 0x70] ++
  [0xF0, 0x10, 0xF0, 0x80, 0xF0] ++ [0xF0, 0x10, 0xF0, 0x10, 0xF0] ++
  [0x90, 0x90, 0xF0, 0x10, 0x10] ++ [0xF0, 0x80, 0xF0, 0x10, 0xF0] ++
  [0xF0, 0x80, 0xF0, 0x90, 0xF0] ++ [0xF0, 0x10, 0x20, 0x40, 0x40] ++
  [0xF0, 0x90, 0xF0, 0x90, 0xF0] ++ [0xF0, 0x90, 0xF0, 0x10, 0xF0] ++
  [0xF0, 0x90, 0xF0, 0x90, 0x90] ++ [0xE0, 0x90, 0xE0, 0x90, 0xE0] ++
  [0xF0, 0x80, 0x80, 0x80, 0xF0] ++ [0xE0, 0x90, 0x90, 0x90, 0xE0] ++
  [0xF0, 0x80, 0xF0, 0x80, 0xF0] ++ [0xF0, 0x80, 0xF0, 0x80, 0x80]

/-- The default `FONT_TABLE`. PRESUMED: its bytes are the default of R41, which the spec takes from
general knowledge (`92_eei_decisions.md` D20, log entry 1). -/
def defaultFont : FontTable := ⟨defaultGlyphs.toArray, rfl⟩

end Sys2Proof.Machine
end

