-- ==== Sys2Proof/Machine/State.lean ====
section
/-!
DEFINITION. The state of the machine as plain data (`10_state.md` R20 to R35), the reasons a step
can stop, and the state after reset (Table R40).
-/

namespace Sys2Proof.Machine

/-- `mem` above the font region: the bytes that are not zero, as address and byte pairs with the
addresses strictly rising. What an unlisted address reads as, and the canonical form, are in
`Sys2Proof/Machine/Memory.lean`. -/
abbrev Memory := List Host.Cell

/-- The framebuffer: 2048 pixels packed in 256 bytes (R31). -/
abbrev Display := Vector Byte 256

/-- What a step reports (`60_exceptions.md`, Table R270). -/
inductive Report where
  /-- Code 0: no condition. -/
  | none
  /-- Code 1: an unrecognised word was executed; the word and its address. -/
  | unimplementedOpcode (op : Word) (addr : Addr)
  /-- Code 2: `2nnn` with `sp = 16`; the address of the word. -/
  | stackOverflow (addr : Addr)
  /-- Code 3: `00EE` with `sp = 0`; the address of the word. -/
  | stackUnderflow (addr : Addr)
deriving DecidableEq, Repr

/-- Which conditions any step has reported so far: the copy that no later step clears, which the
spec asks a model to keep outside the CORE (`92_eei_decisions.md` D11, log entry 3). -/
structure ReportSeen where
  unimplementedOpcode : Bool
  stackOverflow : Bool
  stackUnderflow : Bool
deriving DecidableEq, Repr

/-- The machine aggregate (R20) and, last, the ports of Table R39 that a step reads or writes. -/
structure State where
  /-- `V[0]`..`V[15]` (R22). -/
  v : Vector Byte 16
  /-- Program counter, bits 15:12 zero (R24). -/
  pc : Word
  /-- Index register, bits 15:12 zero (R27). -/
  i : Word
  /-- Stack depth counter, 0..16 in 5 bits (R27). -/
  sp : BitVec 5
  /-- Return-address slots (R28). -/
  stack : Vector Word 16
  /-- Delay timer (R29). -/
  dt : Byte
  /-- Sound timer (R29). -/
  st : Byte
  /-- `mem[0x000..0x04F]`, the font region: the `FONT_TABLE` this machine was built with (R21, R30,
  R41, R62). -/
  font : FontTable
  /-- `mem[0x050..0xFFF]` (R30, R62). -/
  mem : Memory
  /-- `display[0..255]` (R31). -/
  display : Display
  /-- `keyboard[0..15]`, true = pressed (R32). -/
  keyboard : Vector Bool 16
  /-- `sound_request` (R33). -/
  soundRequest : Bool
  /-- OUTPUT PORT: what the last step reported (R270, log entry 2). -/
  report : Report
  /-- MODEL'S OWN: what any step has reported (log entry 3). -/
  reportSeen : ReportSeen
  /-- INPUT PORT: the `RND` byte the host presents to the coming step, if it presents one; gone when
  that step ends, used or not (R12, R183, R303, log entry 4). -/
  rndInput : Option Byte
  /-- MODEL'S OWN: which free byte the coming step has as its `RND` when the host presents none: the
  number of steps so far (log entry 4). -/
  rndIndex : Nat
deriving DecidableEq, Repr

/-- Why the machine stops with a fault. -/
inductive Fault where
  /-- Raised by `2nnn` and `00EE` when `sp` holds one of 17..31, "values 17..31 never reached"
  (`10_state.md` R27): the stack slot they would use does not exist. Safe: no state that meets
  `State.Inv` raises it (log entry 6). -/
  | noStackSlot
deriving DecidableEq, Repr

/-- Why an instruction has no meaning. -/
inductive Refusal where
  /-- Raised by an arm of `exec` whose instruction is not modelled yet. Safe: the run stops.
  Every instruction is modelled, so no arm raises it. -/
  | notModelled (mnemonic : String)
deriving DecidableEq, Repr

/-- What a meaning answers. -/
abbrev Result := Host.Outcome State Fault Refusal

/-- The state after reset of a machine whose `FONT_TABLE` is `font` (Table R40,
`70_reset_and_hazards.md` R300): everything zero but `pc` and the font region. -/
def State.resetWith (font : FontTable) : State where
  v := Vector.replicate 16 0
  pc := 0x200
  i := 0
  sp := 0
  stack := Vector.replicate 16 0
  dt := 0
  st := 0
  font := font
  mem := []
  display := Vector.replicate 256 0
  keyboard := Vector.replicate 16 false
  soundRequest := false
  report := .none
  reportSeen := ⟨false, false, false⟩
  rndInput := none
  rndIndex := 0

/-- The state after reset, with the default `FONT_TABLE`. -/
def State.reset : State := State.resetWith defaultFont

end Sys2Proof.Machine
end

