-- ==== Sys2Proof/Machine/Flags.lean ====
section
/-!
DEFINITION. The flag computations: the values `VF` takes (`10_state.md` R34; `42_alu.md` R178 to
R182; `44_display.md` R227). All are 0 or 1.
-/

namespace Sys2Proof.Machine

/-- A condition as the byte 1 or 0 (R8). -/
def flagByte (c : Bool) : Byte := if c then 1 else 0

/-- Carry of `8xy4`: 1 iff the 9-bit sum exceeds 255 (R178). -/
def addCarry (a b : Byte) : Byte := flagByte (255 < a.toNat + b.toNat)

/-- Not-borrow of `a - b`: 1 iff `a >= b`, equality included (R170, R179, R181). -/
def notBorrow (a b : Byte) : Byte := flagByte (b.toNat ≤ a.toNat)

/-- The bit shifted out at the bottom (R180). -/
def shiftedOutLow (a : Byte) : Byte := a &&& 1

/-- The bit shifted out at the top, as 0 or 1 (R182). -/
def shiftedOutHigh (a : Byte) : Byte := flagByte (a &&& 0x80 != 0)

/-- Collision of one half of a sprite row: the byte of the display, taken before the XOR, and the
incoming half have a common bit (R227). -/
def collides (existing incoming : Byte) : Bool := existing &&& incoming != 0

end Sys2Proof.Machine
end

