-- ==== Sys2Proof/Machine/Memory.lean ====
section
/-!
DEFINITION. `mem` above the font region: what an unlisted address reads as, reading and writing one
byte, and the canonical form of the list (`20_memory.md` R60 to R66). The font region itself is
`State.font`; `State.memRead` reads both.
-/

namespace Sys2Proof.Machine

/-- What an unlisted address of `mem` reads as: the reset contents, zero (Table R40). -/
def Memory.background : Byte := 0

/-- The byte at address `a`. -/
def Memory.read : Memory → Nat → Byte
  | [], _ => background
  | (b, w) :: rest, a => if b = a then w else Memory.read rest a

/-- An entry for `a`, unless `a` would read as `w` without one. -/
def Memory.entry (a : Nat) (w : Byte) (rest : Memory) : Memory :=
  if w = background then rest else (a, w) :: rest

/-- Set the byte at `a`, wherever `a` lies, keeping the canonical form. -/
def Memory.put : Memory → Nat → Byte → Memory
  | [], a, w => entry a w []
  | (b, u) :: rest, a, w =>
    if a < b then entry a w ((b, u) :: rest)
    else if a = b then entry a w rest
    else (b, u) :: Memory.put rest a w

/-- Whether `a` lies in the font region 0x000..0x04F (R62). -/
def inFont (a : Nat) : Bool := a < Config.fontSize

/-- A store: discarded in the font region (R66; D16). -/
def Memory.store (m : Memory) (a : Nat) (w : Byte) : Memory :=
  if inFont a then m else m.put a w

/-- Set the bytes from `a` upward, byte `k` at `a + k`. -/
def Memory.putAll (m : Memory) (a : Nat) : List Byte → Memory
  | [] => m
  | w :: rest => (Memory.putAll m (a + 1) rest).put a w

/-- The canonical form, from a least address on: addresses strictly rising and inside the 4096
bytes, no entry equal to what the address reads as without it. -/
def Memory.wfFrom : Nat → Memory → Bool
  | _, [] => true
  | least, (a, w) :: rest =>
    least ≤ a && a < Config.memSize && w != background && Memory.wfFrom (a + 1) rest

/-- The canonical form: as above, with no entry in the font region. -/
def Memory.wf (m : Memory) : Bool := Memory.wfFrom Config.fontSize m

end Sys2Proof.Machine
end

