-- ==== Sys2Proof/Machine/Operands.lean ====
section
/-!
DEFINITION. The operand forms: what an instruction computes from its fields and registers before
it acts (`00_scope.md` R7, R8; `43_index_memory.md` R202, R203, R206; `44_display.md` R223, R224;
`45_timers_keyboard.md` R257).
-/

namespace Sys2Proof.Machine

/-- Every write to `pc` and `I` stores `value & 0xFFF` (`10_state.md` R24, R27; D2). -/
def mask12 (a : Word) : Word := a &&& 0x0FFF

/-- A 12-bit address as a 16-bit register value. -/
def addrWord (nnn : Addr) : Word := nnn.setWidth 16

/-- A byte as a 16-bit addend: `zext` (R145, R201). -/
def byteWord (b : Byte) : Word := b.setWidth 16

/-- The number `VF` has as a register: 0xF (R22). -/
abbrev regF : Nibble := 0xF#4

/-- Effective address of the one addressing mode: `(base + k) mod 4096` (R206, R61; D3). -/
def effAddr (base : Word) (k : Nat) : Nat := (base.toNat + k) % Config.memSize

/-- The key a register names in `Ex9E` and `ExA1`: its low four bits (R257; D14). -/
def keyIndex (b : Byte) : Nibble := b.setWidth 4

/-- Address of the glyph of a digit: `(Vx mod 16) * 5` (R202). -/
def glyphAddr (b : Byte) : Word := BitVec.ofNat 16 (b.toNat % 16 * 5)

/-- The decimal digits that `Fx33` stores, hundreds, tens, units (R203, `BCD_TENS = decimal`; D6). -/
def bcdDigits (b : Byte) : List Byte :=
  [BitVec.ofNat 8 (b.toNat / 100), BitVec.ofNat 8 (b.toNat / 10 % 10), BitVec.ofNat 8 (b.toNat % 10)]

/-- Column of a sprite's left edge: `x0 mod 64` (R223). -/
def originCol (x0 : Byte) : Nat := x0.toNat % 64

/-- Row of a sprite's top edge: `y0 mod 32` (R223). -/
def originRow (y0 : Byte) : Nat := y0.toNat % 32

/-- The part of a sprite byte that falls in the first display byte: `S[r] >> rshift` (R224). -/
def highHalf (b : Byte) (ox : Nat) : Byte := b >>> (ox % 8)

/-- The part that falls in the next display byte: `(S[r] << lshift) mod 256` (R224). -/
def lowHalf (b : Byte) (ox : Nat) : Byte := b <<< (8 - ox % 8)

/-- Sprite rows that are drawn: `min(n, 32 - oy)` (R225; D18). -/
def visibleRows (n : Nibble) (oy : Nat) : Nat := min n.toNat (32 - oy)

end Sys2Proof.Machine
end

