-- ==== Sys2Proof/Machine/Ops.lean ====
section
/-!
DEFINITION. The named operations over registers, memory, stack, display and the ports, over which
every meaning is written (`00_scope.md` R8), and the phases of a step before the instruction acts
(`40_step_cycle.md` R120).
-/

namespace Sys2Proof.Machine

/-! ### Registers -/

/-- `V[x]` (R22). -/
def State.reg (s : State) (x : Nibble) : Byte := s.v[x.toNat]'x.isLt

/-- `V[x] <- b` (R22). -/
def State.setReg (s : State) (x : Nibble) (b : Byte) : State :=
  { s with v := s.v.set x.toNat b x.isLt }

/-- `VF <- flag`, then `V[x] <- result`: the write order of the flag-writing ALU instructions; with
`x = F` the result wins (`42_alu.md` R171; D5). -/
def State.setFlagged (s : State) (x : Nibble) (flag result : Byte) : State :=
  (s.setReg regF flag).setReg x result

/-- `pc <- a`, masked (R24). -/
def State.setPc (s : State) (a : Word) : State := { s with pc := mask12 a }

/-- `I <- a`, masked (R27). -/
def State.setI (s : State) (a : Word) : State := { s with i := mask12 a }

/-- `dt <- b` (R252). -/
def State.setDt (s : State) (b : Byte) : State := { s with dt := b }

/-- `st <- b` (R253). -/
def State.setSt (s : State) (b : Byte) : State := { s with st := b }

/-- Skip the next word when `c` holds: `pc <- (pc + 2) & 0xFFF` (R25). -/
def State.skipIf (s : State) (c : Bool) : State := if c then s.setPc (s.pc + 2) else s

/-! ### Memory -/

/-- `MemRead(a, 1)`: the address is reduced modulo 4096; the font region reads as the table (R8, R61,
R62). -/
def State.memRead (s : State) (a : Nat) : Byte :=
  if h : a % Config.memSize < Config.fontSize then s.font[a % Config.memSize]
  else s.mem.read (a % Config.memSize)

/-- `MemWrite(a, 1, b)`: reduced modulo 4096, discarded in the font region (R8, R61, R66). -/
def State.memWrite (s : State) (a : Nat) (b : Byte) : State :=
  { s with mem := s.mem.store (a % Config.memSize) b }

/-- Store bytes at `I + k`, `I + k + 1`, ... in ascending order (R203, R204). -/
def State.storeFrom (s : State) (k : Nat) : List Byte → State
  | [] => s
  | b :: rest => (s.memWrite (effAddr s.i k) b).storeFrom (k + 1) rest

/-- The bytes at `I`, `I + 1`, ..., `n` of them (R205, R222). -/
def State.loadBytes (s : State) (n : Nat) : List Byte :=
  (List.range n).map fun k => s.memRead (effAddr s.i k)

/-- `V[0]`..`V[n-1]` as bytes (R204). -/
def State.regList (s : State) (n : Nat) : List Byte :=
  (List.range n).map fun k => s.reg (BitVec.ofNat 4 k)

/-- Load `V[k]`, `V[k+1]`, ... from a list of bytes, ascending (R205). -/
def State.setRegs (s : State) (k : Nat) : List Byte → State
  | [] => s
  | b :: rest => (s.setReg (BitVec.ofNat 4 k) b).setRegs (k + 1) rest

/-! ### Reports: the machine's one kind of condition, and its only entry operation -/

/-- The address of the instruction being executed: `(pc - 2) & 0xFFF` of the advanced pc (R125). -/
def State.instrAddr (s : State) : Addr := (s.pc - 2).setWidth 12

/-- The sticky copy after a report (D11, log entry 3). -/
def ReportSeen.mark (m : ReportSeen) : Report → ReportSeen
  | .none => m
  | .unimplementedOpcode _ _ => { m with unimplementedOpcode := true }
  | .stackOverflow _ => { m with stackOverflow := true }
  | .stackUnderflow _ => { m with stackUnderflow := true }

/-- `raise X(info)`: set this step's report. It saves nothing, changes no mode and moves no control
(`60_exceptions.md` R270, R277); there is no return from it (R278). -/
def State.raise (s : State) (r : Report) : State :=
  { s with report := r, reportSeen := s.reportSeen.mark r }

/-- The code of a report (Table R270). -/
def Report.code : Report → Nat
  | .none => 0
  | .unimplementedOpcode _ _ => 1
  | .stackOverflow _ => 2
  | .stackUnderflow _ => 3

/-! ### Stack (R28) -/

/-- `stack[sp] <- a`, then `sp <- sp + 1`; none where the slot does not exist. -/
def State.push (s : State) (a : Word) : Option State :=
  if h : s.sp.toNat < 16 then some { s with stack := s.stack.set s.sp.toNat a h, sp := s.sp + 1 }
  else none

/-- `sp <- sp - 1`, then the slot `stack[sp]`, which keeps its value; none where the slot does not
exist. -/
def State.pop (s : State) : Option (Word × State) :=
  let sp' := s.sp - 1
  if h : sp'.toNat < 16 then some (s.stack[sp'.toNat], { s with sp := sp' }) else none

/-! ### Keyboard -/

/-- `keyboard[k]` (R32). -/
def State.keyDown (s : State) (k : Nibble) : Bool := s.keyboard[k.toNat]'k.isLt

/-- The smallest key that is down (R256, `KEYWAIT_PICK = lowest`; D13). -/
def State.lowestKey (s : State) : Option Nibble :=
  ((List.range 16).map (BitVec.ofNat 4)).find? s.keyDown

/-! ### Random input -/

/-- The `RND` byte of this step: the one the host presented or, when it presented none, a free value
(R183; D15, log entry 4). -/
def State.rnd (s : State) : Byte :=
  match s.rndInput with
  | some b => b
  | none => Config.randomByte s.rndIndex

/-- The host presents `b` as the `RND` of the coming step (Table R39, R303). -/
def State.presentRnd (s : State) (b : Byte) : State := { s with rndInput := some b }

/-- The end of a step: its `RND` byte is gone, whether `Cxkk` used it or not (R12, R183), and the next
step has a free byte of its own. -/
def State.dropRnd (s : State) : State := { s with rndInput := none, rndIndex := s.rndIndex + 1 }

/-- An outcome of the execute phase as the outcome of the step. -/
def endStep : Result → Result
  | .next s => .next s.dropRnd
  | .fault r => .fault r
  | .refused r => .refused r

/-! ### Display (`44_display.md`) -/

/-- Pixel at column `px`, row `py`: bit `7 - (px mod 8)` of byte `py*8 + px div 8` (R31). -/
def Display.pixel (d : Display) (px py : Nat) : Bool :=
  (d.getD (py * 8 + px / 8) 0).getLsbD (7 - px % 8)

/-- XOR one half into a display byte; true when it collides with what the byte held (R227). Every
index the compositor uses is inside the buffer (R230). -/
def xorHalf (d : Display) (idx : Nat) (half : Byte) : Display × Bool :=
  (d.setIfInBounds idx (d.getD idx 0 ^^^ half), collides (d.getD idx 0) half)

/-- One sprite byte at column `ox`, row `oy`, split across two display bytes; the second is skipped
when the first is the last of its row (R221, R224, R226, `DRAW_RIGHT_EDGE = clip`; D17). -/
def drawRow (d : Display) (ox oy : Nat) (b : Byte) : Display × Bool :=
  let cb := ox / 8
  let idx := oy * 8 + cb
  let first := xorHalf d idx (highHalf b ox)
  if cb < 7 then
    let second := xorHalf first.1 (idx + 1) (lowHalf b ox)
    (second.1, first.2 || second.2)
  else first

/-- The rows of a sprite from row `oy` down (R221). -/
def drawRows (d : Display) (ox oy : Nat) : List Byte → Display × Bool
  | [] => (d, false)
  | b :: rest =>
    let row := drawRow d ox oy b
    let below := drawRows row.1 ox (oy + 1) rest
    (below.1, row.2 || below.2)

/-- `display <- d`. -/
def State.setDisplay (s : State) (d : Display) : State := { s with display := d }

/-! ### The phases of a step before the instruction acts (`40_step_cycle.md` R120) -/

/-- `report <- None` (R126). -/
def State.clearReport (s : State) : State := { s with report := .none }

/-- A timer counts down and stays at zero (R250). -/
def countDown (t : Byte) : Byte := if t = 0 then 0 else t - 1

/-- Phase 1, the tick: `st` is compared with 1 before it is decremented (R250). -/
def State.tick (s : State) : State :=
  { s with
    soundRequest := s.soundRequest || s.st == 1
    dt := countDown s.dt
    st := countDown s.st }

/-- Phase 2: the big-endian word at `pc` (R122, R63). -/
def State.fetchWord (s : State) : Word :=
  wordOfBytes (s.memRead s.pc.toNat) (s.memRead (s.pc.toNat + 1))

/-- `pc <- (pc + 2) & 0xFFF` (R122). -/
def State.advancePc (s : State) : State := s.setPc (s.pc + 2)

/-- The state in which an instruction acts: report cleared, timers ticked, `pc` advanced. -/
def State.enter (s : State) : State := s.clearReport.tick.advancePc

/-- An unrecognised word: a reported no-op; `s` is the state after the phases above (R125). -/
def State.unrecognised (s : State) (op : Word) : State :=
  s.raise (.unimplementedOpcode op s.instrAddr)

/-- Set the byte at `a` modulo 4096, in the font region too: not an access of the CORE but a placement
from outside. -/
def State.placeByte (s : State) (a : Nat) (b : Byte) : State :=
  if h : a % Config.memSize < Config.fontSize then
    { s with font := s.font.set (a % Config.memSize) b h }
  else { s with mem := s.mem.put (a % Config.memSize) b }

/-- Place bytes at `a`, `a + 1`, ... -/
def State.place (s : State) (a : Nat) : List Byte → State
  | [] => s
  | b :: rest => (s.placeByte a b).place (a + 1) rest

end Sys2Proof.Machine
end

