-- ==== Sys2Proof/Machine/Alu.lean ====
section
/-!
DEFINITION. Register loads, the 8-bit ALU and the random byte (`42_alu.md`). Arithmetic is
unsigned and wraps (R170); the flag-writing instructions read both operands first and then write
the flag and the result, in that order (R171).
-/

namespace Sys2Proof.Machine

/-- `6xkk` LD Vx, kk (R172). -/
def execLdImm (x : Nibble) (kk : Byte) (s : State) : Result := .next (s.setReg x kk)

/-- `7xkk` ADD Vx, kk: no flag (R173). -/
def execAddImm (x : Nibble) (kk : Byte) (s : State) : Result := .next (s.setReg x (s.reg x + kk))

/-- `8xy0` LD Vx, Vy (R174). -/
def execLdReg (x y : Nibble) (s : State) : Result := .next (s.setReg x (s.reg y))

/-- `8xy1` OR: `VF` is not touched (R175; D30). -/
def execOr (x y : Nibble) (s : State) : Result := .next (s.setReg x (s.reg x ||| s.reg y))

/-- `8xy2` AND: `VF` is not touched (R176; D30). -/
def execAnd (x y : Nibble) (s : State) : Result := .next (s.setReg x (s.reg x &&& s.reg y))

/-- `8xy3` XOR: `VF` is not touched (R177; D30). -/
def execXor (x y : Nibble) (s : State) : Result := .next (s.setReg x (s.reg x ^^^ s.reg y))

/-- `8xy4` ADD Vx, Vy with carry out (R178). -/
def execAddReg (x y : Nibble) (s : State) : Result :=
  .next (s.setFlagged x (addCarry (s.reg x) (s.reg y)) (s.reg x + s.reg y))

/-- `8xy5` SUB: `Vx - Vy` with not-borrow out (R179). -/
def execSub (x y : Nibble) (s : State) : Result :=
  .next (s.setFlagged x (notBorrow (s.reg x) (s.reg y)) (s.reg x - s.reg y))

/-- `8xy6` SHR: `Vx` alone, `Vy` unused (R180; D7). -/
def execShr (x _y : Nibble) (s : State) : Result :=
  .next (s.setFlagged x (shiftedOutLow (s.reg x)) (s.reg x >>> 1))

/-- `8xy7` SUBN: `Vy - Vx` with not-borrow out (R181). -/
def execSubn (x y : Nibble) (s : State) : Result :=
  .next (s.setFlagged x (notBorrow (s.reg y) (s.reg x)) (s.reg y - s.reg x))

/-- `8xyE` SHL: `Vx` alone, `Vy` unused (R182; D7). -/
def execShl (x _y : Nibble) (s : State) : Result :=
  .next (s.setFlagged x (shiftedOutHigh (s.reg x)) (s.reg x <<< 1))

/-- `Cxkk` RND: the `RND` byte of this step, masked (R183; D15). -/
def execRnd (x : Nibble) (kk : Byte) (s : State) : Result :=
  .next (s.setReg x (s.rnd &&& kk))

end Sys2Proof.Machine
end

