-- ==== Sys2Proof/Machine/Control.lean ====
section
/-!
DEFINITION. Control transfer (`41_control_flow.md`). `s.pc` is the advanced pc (R140).
-/

namespace Sys2Proof.Machine

/-- `00EE` RET: with `sp = 0` a reported no-op, else pop into `pc` (R141; D10). -/
def execRet (s : State) : Result :=
  if s.sp = 0 then .next (s.raise (.stackUnderflow s.instrAddr))
  else
    match s.pop with
    | some (a, s') => .next (s'.setPc a)
    | none => .fault .noStackSlot

/-- `0nnn` SYS: executed as a jump (R142). -/
def execSys (nnn : Addr) (s : State) : Result := .next (s.setPc (addrWord nnn))

/-- `1nnn` JP (R143). -/
def execJp (nnn : Addr) (s : State) : Result := .next (s.setPc (addrWord nnn))

/-- `2nnn` CALL: with `sp = 16` a reported no-op, else push the advanced pc and jump (R144; D9). -/
def execCall (nnn : Addr) (s : State) : Result :=
  if s.sp = 16 then .next (s.raise (.stackOverflow s.instrAddr))
  else
    match s.push s.pc with
    | some s' => .next (s'.setPc (addrWord nnn))
    | none => .fault .noStackSlot

/-- `Bnnn` JP V0: the register is always `V0` (R145; D2). -/
def execJpV0 (nnn : Addr) (s : State) : Result :=
  .next (s.setPc (addrWord nnn + byteWord (s.reg 0)))

/-- `3xkk` SE Vx, kk (R146). -/
def execSeImm (x : Nibble) (kk : Byte) (s : State) : Result := .next (s.skipIf (s.reg x == kk))

/-- `4xkk` SNE Vx, kk (R147). -/
def execSneImm (x : Nibble) (kk : Byte) (s : State) : Result := .next (s.skipIf (s.reg x != kk))

/-- `5xy0` SE Vx, Vy (R148). -/
def execSeReg (x y : Nibble) (s : State) : Result := .next (s.skipIf (s.reg x == s.reg y))

/-- `9xy0` SNE Vx, Vy (R149). -/
def execSneReg (x y : Nibble) (s : State) : Result := .next (s.skipIf (s.reg x != s.reg y))

end Sys2Proof.Machine
end

