-- ==== Sys2Proof/Machine/Index.lean ====
section
/-!
DEFINITION. The index register, BCD, and the register block store and load
(`43_index_memory.md`). `I` is never changed by an instruction that uses it as an address (R206).
-/

namespace Sys2Proof.Machine

/-- `Annn` LD I, nnn (R200). -/
def execLdI (nnn : Addr) (s : State) : Result := .next (s.setI (addrWord nnn))

/-- `Fx1E` ADD I, Vx: no flag (R201; D2). -/
def execAddI (x : Nibble) (s : State) : Result := .next (s.setI (s.i + byteWord (s.reg x)))

/-- `Fx29` LD F, Vx (R202). -/
def execLdF (x : Nibble) (s : State) : Result := .next (s.setI (glyphAddr (s.reg x)))

/-- `Fx33` LD B, Vx: three digits at `I`, `I+1`, `I+2` (R203; D6). -/
def execLdB (x : Nibble) (s : State) : Result := .next (s.storeFrom 0 (bcdDigits (s.reg x)))

/-- `Fx55` LD [I], Vx: `V0..Vx` at `I..I+x` (R204). -/
def execLdMemVx (x : Nibble) (s : State) : Result :=
  .next (s.storeFrom 0 (s.regList (x.toNat + 1)))

/-- `Fx65` LD Vx, [I]: `V0..Vx` from `I..I+x` (R205). -/
def execLdVxMem (x : Nibble) (s : State) : Result :=
  .next (s.setRegs 0 (s.loadBytes (x.toNat + 1)))

end Sys2Proof.Machine
end

