-- ==== Sys2Proof/Machine/Screen.lean ====
section
/-!
DEFINITION. The display compositor (`44_display.md`).
-/

namespace Sys2Proof.Machine

/-- `00E0` CLS: every display byte to zero (R220). -/
def execCls (s : State) : Result := .next (s.setDisplay (Vector.replicate 256 0))

/-- `Dxyn` DRW: the coordinates and the sprite bytes are read first, then `VF <- 0`, then the visible
rows are drawn and `VF` tells a collision (R221, R222, R225; D18, D19; the binding of the
operands is log entry 8). -/
def execDrw (x y n : Nibble) (s : State) : Result :=
  let ox := originCol (s.reg x)
  let oy := originRow (s.reg y)
  let sprite := (s.loadBytes n.toNat).take (visibleRows n oy)
  let drawn := drawRows s.display ox oy sprite
  .next (((s.setReg regF 0).setDisplay drawn.1).setReg regF (flagByte drawn.2))

end Sys2Proof.Machine
end

