-- ==== Sys2Proof/Machine/Timers.lean ====
section
/-!
DEFINITION. Timer access, key skips and the key-wait (`45_timers_keyboard.md`). The tick itself is
`State.tick`.
-/

namespace Sys2Proof.Machine

/-- `Fx07` LD Vx, DT: the value after this step's tick (R251). -/
def execLdVxDt (x : Nibble) (s : State) : Result := .next (s.setReg x s.dt)

/-- `Fx15` LD DT, Vx (R252). -/
def execLdDtVx (x : Nibble) (s : State) : Result := .next (s.setDt (s.reg x))

/-- `Fx18` LD ST, Vx: `sound_request` is not written (R253). -/
def execLdStVx (x : Nibble) (s : State) : Result := .next (s.setSt (s.reg x))

/-- `Ex9E` SKP: skip if the key is down (R254, R257; D14). -/
def execSkp (x : Nibble) (s : State) : Result :=
  .next (s.skipIf (s.keyDown (keyIndex (s.reg x))))

/-- `ExA1` SKNP: skip if the key is up (R255, R257; D14). -/
def execSknp (x : Nibble) (s : State) : Result :=
  .next (s.skipIf (!s.keyDown (keyIndex (s.reg x))))

/-- `Fx0A` LD Vx, K: resolved with the smallest key down, else the fetch advance is undone (R256; D13). -/
def execLdVxK (x : Nibble) (s : State) : Result :=
  match s.lowestKey with
  | some k => .next (s.setReg x (k.setWidth 8))
  | none => .next (s.setPc (s.pc - 2))

end Sys2Proof.Machine
end

