-- ==== Sys2Proof/Machine/Step.lean ====
section
/-!
DEFINITION. The one transition of the CORE (`40_step_cycle.md` R120).
-/

namespace Sys2Proof.Machine

/-- Clear the report, tick, fetch and advance `pc`, decode, execute one instruction; with the step its
`RND` byte ends. The word is fetched before `pc` moves; the tick touches neither `pc` nor `mem`. -/
def step (s : State) : Host.Outcome State Fault Refusal :=
  let op := s.clearReport.tick.fetchWord
  endStep <|
    match decodeWord op with
    | .ok i => exec i s.enter
    | .error _ => .next (s.enter.unrecognised op)

/-- `s` with a table row's word where the next step fetches: at `pc`, high byte first. It stands
for the load of a program from outside the machine (log entry 7). -/
def State.withFetchWord (s : State) (nbits w : Nat) : State :=
  s.place s.pc.toNat (bytesOfWord (tableWord nbits w))

end Sys2Proof.Machine
end

