-- ==== Sys2Proof/Machine/HostPort.lean ====
section
/-!
DEFINITION. What the outside world does to the machine between two steps (`10_state.md` Table R39,
`00_scope.md` R11, `70_reset_and_hazards.md` R301, R302; log entry 9).
-/

namespace Sys2Proof.Machine

/-- `set_key(k, pressed)`; a `k` outside 0..15 has no effect (R32; D25). -/
def State.setKey (s : State) (k : Nat) (pressed : Bool) : State :=
  if h : k < 16 then { s with keyboard := s.keyboard.set k pressed h } else s

/-- `clear_sound`: the audio sink clears `sound_request` (R33; D24). -/
def State.clearSound (s : State) : State := { s with soundRequest := false }

/-- The spec's `Step(RND)`: the step to which the host gives the byte `b` (R120, Table R39). -/
def State.stepWith (s : State) (b : Byte) : Result := step (s.presentRnd b)

/-- A move of the host that changes the state, between two steps (R11). -/
inductive HostMove where
  /-- `set_key(k, pressed)`. -/
  | setKey (k : Nat) (pressed : Bool)
  /-- `clear_sound`. -/
  | clearSound
deriving DecidableEq, Repr

/-- The state after a move of the host. -/
def State.hostMove (s : State) : HostMove → State
  | .setKey k pressed => s.setKey k pressed
  | .clearSound => s.clearSound

/-! ### Sessions: reset, one load, then steps with host moves between them (R301) -/

/-- A machine in its session. -/
structure Session where
  /-- The machine. -/
  machine : State
  /-- HOST'S SIDE, no state of the CORE: no load has been done and no step taken since reset, so that a
  load is still to be had (R74, R302; D27, log entry 7). -/
  fresh : Bool
deriving DecidableEq, Repr

/-- Reset, on a machine whose `FONT_TABLE` is `font` (R300, R301). -/
def Session.start (font : FontTable) : Session := ⟨State.resetWith font, true⟩

/-- Why a load fails. -/
inductive LoadError where
  /-- `LoadTooLarge` (`60_exceptions.md` R285, R302). -/
  | tooLarge
  /-- A second load, or a load after stepping has begun (R74; `92_eei_decisions.md` D27, log entry 7). -/
  | notFreshlyReset
deriving DecidableEq, Repr

/-- The longest ROM: it exactly fills 0x200..0xFFF (R302; D8). -/
def maxRom : Nat := 3584

/-- `load(rom_bytes)`: once, after reset and before the first step; on failure nothing is written (R74,
R302). -/
def Session.load (x : Session) (rom : List Byte) : Except LoadError Session :=
  if x.fresh then
    if maxRom < rom.length then .error .tooLarge
    else .ok ⟨{ x.machine with mem := x.machine.mem.putAll Config.programStart rom }, false⟩
  else .error .notFreshlyReset

/-- What happens in a session (Table R39). -/
inductive Event where
  /-- `load(rom_bytes)`. -/
  | load (rom : List Byte)
  /-- `step`, with its `RND`. -/
  | step (rnd : Byte)
  /-- A move of the host between two steps. -/
  | host (m : HostMove)
deriving DecidableEq, Repr

/-- One event; a load that fails leaves the session as it was (R285). -/
def Session.event (x : Session) : Event → Host.Outcome Session Fault Refusal
  | .load rom =>
    match x.load rom with
    | .ok y => .next y
    | .error _ => .next x
  | .step rnd =>
    match x.machine.stepWith rnd with
    | .next t => .next ⟨t, false⟩
    | .fault r => .fault r
    | .refused r => .refused r
  | .host m => .next { x with machine := x.machine.hostMove m }

/-- Events in order, stopping at the first that does not answer a next state. -/
def Session.run (x : Session) : List Event → Host.Outcome Session Fault Refusal
  | [] => .next x
  | e :: rest =>
    match x.event e with
    | .next y => y.run rest
    | .fault r => .fault r
    | .refused r => .refused r

end Sys2Proof.Machine
end

