-- ==== Sys2Proof/Safety.lean ====
section
/-!
DEFINITION. What claims say about states and runs: the invariants of `10_state.md` R37, a run
without a report (`92_eei_decisions.md` D11), and, read off the spec's rules, which state an
instruction may change.
-/

namespace Sys2Proof.Machine

/-- The invariants R37 states, but for the alignment of `pc`, which the hardware does not enforce
(R26): `pc`, `I` and the stack slots are 12-bit addresses, `sp` never exceeds 16, `mem` is in its
canonical form and the font region reads as `font`, the `FONT_TABLE` installed at reset. That the
display has 2048 bits is in its type. -/
structure State.Inv (font : FontTable) (s : State) : Prop where
  pc_lt : s.pc.toNat < 4096
  i_lt : s.i.toNat < 4096
  sp_le : s.sp.toNat ≤ 16
  stack_lt : ∀ (k : Nat) (h : k < 16), (s.stack[k]'h).toNat < 4096
  mem_wf : s.mem.wf = true
  font_intact : ∀ (a : Nat) (h : a < Config.fontSize), s.memRead a = font[a]

/-- No step so far has reported a condition: the premise under which the machine is known to act as
the chip the source was written from (D9, D11, D12). -/
def State.NoReportSoFar (s : State) : Prop := s.reportSeen = ⟨false, false, false⟩

/-- The instruction the next step executes; none for an unrecognised word. -/
def State.nextInstr (s : State) : Option Instr :=
  match decodeWord s.fetchWord with
  | .ok i => some i
  | .error _ => none

/-- `k` steps from `s` to `t`, none of which executes an instruction that `p` picks out. -/
def StepsWithout (p : Instr → Bool) : Nat → State → State → Prop
  | 0, s, t => t = s
  | k + 1, s, t => ∃ u, s.nextInstr.any p = false ∧ step s = .next u ∧ StepsWithout p k u t

end Sys2Proof.Machine

namespace Sys2Proof

/-- The registers an instruction may write: its destination, `VF` where the instruction also writes
the flag, `V0..Vx` for the block load (`10_state.md` R22, R34; `43_index_memory.md` R205). -/
def Instr.mayWriteReg (i : Instr) (y : Nibble) : Bool :=
  match i with
  | .ldImm x _ | .addImm x _ | .rnd x _ => y == x
  | .ldReg x _ | .orReg x _ | .andReg x _ | .xorReg x _ => y == x
  | .addReg x _ | .sub x _ | .shr x _ | .subn x _ | .shl x _ => y == x || y == 0xF#4
  | .drw _ _ _ => y == 0xF#4
  | .ldVxDt x | .ldVxK x => y == x
  | .ldVxMem x => y.toNat ≤ x.toNat
  | .cls | .ret | .sys _ | .jp _ | .call _ | .seImm _ _ | .sneImm _ _ | .seReg _ _ | .sneReg _ _
  | .ldI _ | .jpV0 _ | .skp _ | .sknp _ | .ldDtVx _ | .ldStVx _ | .addI _ | .ldF _ | .ldB _
  | .ldMemVx _ => false

/-- How many bytes an instruction stores, from `I` upward (`20_memory.md` R67). -/
def Instr.storeLen (i : Instr) : Nat :=
  match i with
  | .ldB _ => 3
  | .ldMemVx x => x.toNat + 1
  | .cls | .ret | .sys _ | .jp _ | .call _ | .seImm _ _ | .sneImm _ _ | .seReg _ _ | .sneReg _ _
  | .ldImm _ _ | .addImm _ _ | .ldReg _ _ | .orReg _ _ | .andReg _ _ | .xorReg _ _ | .addReg _ _
  | .sub _ _ | .shr _ _ | .subn _ _ | .shl _ _ | .ldI _ | .jpV0 _ | .rnd _ _ | .drw _ _ _ | .skp _
  | .sknp _ | .ldVxDt _ | .ldDtVx _ | .ldStVx _ | .ldVxK _ | .addI _ | .ldF _ | .ldVxMem _ => 0

/-- The instructions that may move `pc` past the fetch advance (`10_state.md` R25). -/
def Instr.mayMovePc (i : Instr) : Bool :=
  match i with
  | .ret | .sys _ | .jp _ | .call _ | .seImm _ _ | .sneImm _ _ | .seReg _ _ | .sneReg _ _ | .jpV0 _
  | .skp _ | .sknp _ | .ldVxK _ => true
  | .cls | .ldImm _ _ | .addImm _ _ | .ldReg _ _ | .orReg _ _ | .andReg _ _ | .xorReg _ _
  | .addReg _ _ | .sub _ _ | .shr _ _ | .subn _ _ | .shl _ _ | .ldI _ | .rnd _ _ | .drw _ _ _
  | .ldVxDt _ | .ldDtVx _ | .ldStVx _ | .addI _ | .ldF _ | .ldB _ | .ldMemVx _ | .ldVxMem _ => false

/-- The instructions that write `I` (`10_state.md` R27). -/
def Instr.writesI (i : Instr) : Bool := i matches .ldI _ | .addI _ | .ldF _

/-- The instructions that write `display` (`20_memory.md` R60). -/
def Instr.writesDisplay (i : Instr) : Bool := i matches .cls | .drw _ _ _

/-- The instruction that writes a stack slot (`10_state.md` R28). -/
def Instr.isCall (i : Instr) : Bool := i matches .call _

/-- The instructions that move `sp` (Table R35). -/
def Instr.movesSp (i : Instr) : Bool := i matches .call _ | .ret

/-- The instruction that writes `dt` (Table R35). -/
def Instr.writesDt (i : Instr) : Bool := i matches .ldDtVx _

/-- The instruction that writes `st` (Table R35). -/
def Instr.writesSt (i : Instr) : Bool := i matches .ldStVx _

/-- The instruction that draws the random byte (`42_alu.md` R183). -/
def Instr.drawsRnd (i : Instr) : Bool := i matches .rnd _ _

end Sys2Proof
end

