-- ==== Sys2Proof/Certificates/Slice0/Obligations.lean ====
section
/-!
DEFINITION. The statements for the provers: what the rules of spec/ say the instructions and the
machine do, over the whole of `exec`, `step` and the host's moves.

A docstring that says SPEC'S DECISION names a row of `92_eei_decisions.md`: there the source is open
and the spec chose; such a statement is `derived`. MODEL'S CHOICE names an entry of the log.
-/

namespace Sys2Proof.Claims

/-- The 16-bit number `w` is the word of `i`. -/
def Encodes (w : Nat) (i : Instr) : Prop := decodeWord (BitVec.ofNat 16 w) = .ok i

/-- A 16-bit register `k` further on, modulo 4096. -/
def plus12 (a : Word) (k : Nat) : Word := BitVec.ofNat 16 ((a.toNat + k) % 4096)

/-- The 12-bit address in `pc`, `k` bytes further on. -/
def addr12 (a : Word) (k : Nat) : Addr := BitVec.ofNat 12 (a.toNat + k)

/-- The state in which the fetched instruction acts: this step's report none yet, both timers one
down, the sound request raised when `st` was 1 on entry, `pc` two on (R120, R122, R250). -/
def afterFetch (s : Machine.State) : Machine.State :=
  { s with
    report := .none
    dt := BitVec.ofNat 8 (s.dt.toNat - 1)
    st := BitVec.ofNat 8 (s.st.toNat - 1)
    soundRequest := s.soundRequest || decide (s.st.toNat = 1)
    pc := plus12 s.pc 2 }

/-- The state with the step ended: its `RND` byte gone, the next step's free byte another one (R12,
log entry 4). -/
def stepEnd (s : Machine.State) : Machine.State :=
  { s with rndInput := none, rndIndex := s.rndIndex + 1 }

/-- The word the next step fetches: the bytes at `pc` and `pc + 1`, the first one high (R63, R122). -/
def opcodeAt (s : Machine.State) : Word :=
  BitVec.ofNat 16 (256 * (s.memRead s.pc.toNat).toNat + (s.memRead (s.pc.toNat + 1)).toNat)

/-- A row of Table R97: mask, match, and the instruction built from the fields of Table R91. -/
structure Row where
  mask : Word
  pattern : Word
  build : Word → Instr

/-- `x` of a word, as Table R91 numbers its bits. -/
def xOf (w : Word) : Nibble := BitVec.ofNat 4 (w.toNat / 256)

/-- `y` of a word. -/
def yOf (w : Word) : Nibble := BitVec.ofNat 4 (w.toNat / 16)

/-- `n` of a word. -/
def nOf (w : Word) : Nibble := BitVec.ofNat 4 w.toNat

/-- `kk` of a word. -/
def kkOf (w : Word) : Byte := BitVec.ofNat 8 w.toNat

/-- `nnn` of a word. -/
def nnnOf (w : Word) : Addr := BitVec.ofNat 12 w.toNat

/-- The rows of formats `FIXED` and `NNN`, the fixed words first (R94). -/
def rowsFixedAndNNN : List Row :=
  [⟨0xFFFF, 0x00E0, fun _ => .cls⟩, ⟨0xFFFF, 0x00EE, fun _ => .ret⟩,
   ⟨0xF000, 0x0000, fun w => .sys (nnnOf w)⟩, ⟨0xF000, 0x1000, fun w => .jp (nnnOf w)⟩,
   ⟨0xF000, 0x2000, fun w => .call (nnnOf w)⟩, ⟨0xF000, 0xA000, fun w => .ldI (nnnOf w)⟩,
   ⟨0xF000, 0xB000, fun w => .jpV0 (nnnOf w)⟩]

/-- The rows of format `XKK`. -/
def rowsXKK : List Row :=
  [⟨0xF000, 0x3000, fun w => .seImm (xOf w) (kkOf w)⟩,
   ⟨0xF000, 0x4000, fun w => .sneImm (xOf w) (kkOf w)⟩,
   ⟨0xF000, 0x6000, fun w => .ldImm (xOf w) (kkOf w)⟩,
   ⟨0xF000, 0x7000, fun w => .addImm (xOf w) (kkOf w)⟩,
   ⟨0xF000, 0xC000, fun w => .rnd (xOf w) (kkOf w)⟩]

/-- The rows of formats `XY` and `XYN`. -/
def rowsXY : List Row :=
  [⟨0xF00F, 0x5000, fun w => .seReg (xOf w) (yOf w)⟩,
   ⟨0xF00F, 0x9000, fun w => .sneReg (xOf w) (yOf w)⟩,
   ⟨0xF00F, 0x8000, fun w => .ldReg (xOf w) (yOf w)⟩,
   ⟨0xF00F, 0x8001, fun w => .orReg (xOf w) (yOf w)⟩,
   ⟨0xF00F, 0x8002, fun w => .andReg (xOf w) (yOf w)⟩,
   ⟨0xF00F, 0x8003, fun w => .xorReg (xOf w) (yOf w)⟩,
   ⟨0xF00F, 0x8004, fun w => .addReg (xOf w) (yOf w)⟩,
   ⟨0xF00F, 0x8005, fun w => .sub (xOf w) (yOf w)⟩,
   ⟨0xF00F, 0x8006, fun w => .shr (xOf w) (yOf w)⟩,
   ⟨0xF00F, 0x8007, fun w => .subn (xOf w) (yOf w)⟩,
   ⟨0xF00F, 0x800E, fun w => .shl (xOf w) (yOf w)⟩,
   ⟨0xF000, 0xD000, fun w => .drw (xOf w) (yOf w) (nOf w)⟩]

/-- The rows of format `X`. -/
def rowsX : List Row :=
  [⟨0xF0FF, 0xE09E, fun w => .skp (xOf w)⟩, ⟨0xF0FF, 0xE0A1, fun w => .sknp (xOf w)⟩,
   ⟨0xF0FF, 0xF007, fun w => .ldVxDt (xOf w)⟩, ⟨0xF0FF, 0xF015, fun w => .ldDtVx (xOf w)⟩,
   ⟨0xF0FF, 0xF018, fun w => .ldStVx (xOf w)⟩, ⟨0xF0FF, 0xF00A, fun w => .ldVxK (xOf w)⟩,
   ⟨0xF0FF, 0xF01E, fun w => .addI (xOf w)⟩, ⟨0xF0FF, 0xF029, fun w => .ldF (xOf w)⟩,
   ⟨0xF0FF, 0xF033, fun w => .ldB (xOf w)⟩, ⟨0xF0FF, 0xF055, fun w => .ldMemVx (xOf w)⟩,
   ⟨0xF0FF, 0xF065, fun w => .ldVxMem (xOf w)⟩]

/-- The 35 rows of Table R97. -/
def tableR97 : List Row := rowsFixedAndNNN ++ rowsXKK ++ rowsXY ++ rowsX

/-- The pixel at column `px`, row `py` receives a 1 bit of the sprite of `n` rows at `I` whose left
top corner is at column `ox`, row `oy` (R223, R225, R228). -/
def SpriteLit (s : Machine.State) (n : Nibble) (ox oy px py : Nat) : Prop :=
  ox ≤ px ∧ px < ox + 8 ∧ oy ≤ py ∧ py < oy + n.toNat ∧
    (s.memRead (Machine.effAddr s.i (py - oy))).getLsbD (7 - (px - ox)) = true

end Sys2Proof.Claims

open Sys2Proof Sys2Proof.Machine Sys2Proof.Claims

/-! ### Reset, invariants, runs -/

/-- Reset leaves every piece of state at its value of Table R40, for every `FONT_TABLE`;
`State.reset` is the reset with the default table, whose bytes are log entry 1. -/
def Obligations.ResetLeavesTableR40 : Prop :=
  (∀ font : FontTable,
    (State.resetWith font).pc.toNat = 0x200 ∧ (State.resetWith font).i.toNat = 0 ∧
    (∀ x, (State.resetWith font).reg x = 0) ∧ (State.resetWith font).sp.toNat = 0 ∧
    (∀ (k : Nat) (h : k < 16), (State.resetWith font).stack[k]'h = 0) ∧
    (State.resetWith font).dt = 0 ∧ (State.resetWith font).st = 0 ∧
    (∀ (a : Nat) (h : a < 80), (State.resetWith font).memRead a = font[a]'h) ∧
    (∀ a, 80 ≤ a → a < 4096 → (State.resetWith font).memRead a = 0) ∧
    (∀ (k : Nat) (h : k < 256), (State.resetWith font).display[k]'h = 0) ∧
    (∀ k, (State.resetWith font).keyDown k = false) ∧
    (State.resetWith font).soundRequest = false) ∧
  State.reset = State.resetWith defaultFont

/-- The invariants of R37 hold after reset, for every `FONT_TABLE`. -/
def Obligations.ResetMeetsInvariant : Prop := ∀ font : FontTable, (State.resetWith font).Inv font

/-- Every step keeps the invariants of R37: `pc`, `I` and the stack slots stay 12-bit addresses, `sp`
never exceeds 16, `mem` stays canonical, the font region reads as the table installed at reset, for
every table. SPEC'S DECISIONS D2, D3, D9, D10, D16, D22. -/
def Obligations.StepKeepsInvariant : Prop :=
  ∀ (font : FontTable) (s t : State), s.Inv font → step s = .next t → t.Inv font

/-- From a state that meets the invariants every step answers a next state: the CORE never faults,
never traps and is never stuck (R13). -/
def Obligations.InvariantStateAlwaysSteps : Prop :=
  ∀ (font : FontTable) (s : State), s.Inv font → ∃ t, step s = .next t

/-- The host's moves between steps, a `RND` byte presented and a load that succeeds keep the
invariants. SPEC'S DECISIONS D8, D15, D24, D25. -/
def Obligations.HostMovesKeepInvariant : Prop :=
  ∀ font : FontTable,
    (∀ (s : State) (m : HostMove), s.Inv font → (s.hostMove m).Inv font) ∧
    (∀ (s : State) (b : Byte), s.Inv font → (s.presentRnd b).Inv font) ∧
    (∀ (x y : Session) (rom : List Byte), x.machine.Inv font → x.load rom = .ok y →
      y.machine.Inv font)

/-- Any session of loads, steps with any `RND` bytes and host moves, from any state that meets the
invariants, runs to its end and leaves a state that meets them (R13, R37, R301). -/
def Obligations.SessionsRunAndKeepInvariant : Prop :=
  ∀ (font : FontTable) (x : Session) (events : List Event), x.machine.Inv font →
    ∃ y, x.run events = .next y ∧ y.machine.Inv font

/-! ### Encoding -/

/-- The decoder is Table R97 read with the priority of R94: the first row whose mask and match select
the word, with the fields of Table R91; no row, no instruction. -/
def Obligations.DecoderIsTableR97 : Prop :=
  ∀ w : Word, (decodeWord w).toOption =
    (tableR97.find? fun r => w &&& r.mask = r.pattern).map fun r => r.build w

/-- Decoding the word of a well-formed instruction gives the instruction back, every operand at every
value; as bytes in memory order too, whatever bytes follow. -/
def Obligations.DecodeOfEncode : Prop :=
  ∀ i : Instr, i.wf = true → decodeWord (encode i) = .ok i ∧
    ∀ rest, decode (encodeBytes i ++ rest) = .ok (i, rest)

/-- A recognised word is the word of the instruction it decodes to, and that instruction is well
formed: no word has two spellings. -/
def Obligations.EncodeOfDecode : Prop :=
  ∀ (w : Word) (i : Instr), decodeWord w = .ok i → encode i = w ∧ i.wf = true

/-- The unrecognised words are exactly the five groups of R98, each rejected by its name. SPEC'S
DECISION D12. -/
def Obligations.UnrecognisedWordsByFamily : Prop :=
  ∀ w : Word,
    (decodeWord w = .error .family5 ↔ w.toNat / 4096 = 5 ∧ w.toNat % 16 ≠ 0) ∧
    (decodeWord w = .error .family9 ↔ w.toNat / 4096 = 9 ∧ w.toNat % 16 ≠ 0) ∧
    (decodeWord w = .error .family8 ↔
      w.toNat / 4096 = 8 ∧ w.toNat % 16 ∈ [0x8, 0x9, 0xA, 0xB, 0xC, 0xD, 0xF]) ∧
    (decodeWord w = .error .familyE ↔ w.toNat / 4096 = 0xE ∧ w.toNat % 256 ∉ [0x9E, 0xA1]) ∧
    (decodeWord w = .error .familyF ↔ w.toNat / 4096 = 0xF ∧
      w.toNat % 256 ∉ [0x07, 0x0A, 0x15, 0x18, 0x1E, 0x29, 0x33, 0x55, 0x65]) ∧
    decodeWord w ≠ .error .truncated

/-- Words written out from the encodings, at least one of each of the sixteen families, decode to the
instructions they stand for, and one of each family with unrecognised words is rejected: the words of
`95_test_vectors.md` V-E1 to V-E16, V-U2, V-C1, V-C5, V-C7, V-C10, V-A1, V-A26, V-M1, and a `2nnn`. -/
def Obligations.WrittenWordsDecode : Prop :=
  Encodes 0x00E0 .cls ∧ Encodes 0x00EE .ret ∧ Encodes 0x00E1 (.sys 0x0E1) ∧
  Encodes 0x0000 (.sys 0x000) ∧ Encodes 0x1234 (.jp 0x234) ∧ Encodes 0x1ABC (.jp 0xABC) ∧
  Encodes 0x2210 (.call 0x210) ∧ Encodes 0x3100 (.seImm 0x1 0x00) ∧
  Encodes 0x4211 (.sneImm 0x2 0x11) ∧ Encodes 0x5AB0 (.seReg 0xA 0xB) ∧
  Encodes 0x6105 (.ldImm 0x1 0x05) ∧ Encodes 0x71FF (.addImm 0x1 0xFF) ∧
  Encodes 0x8AB4 (.addReg 0xA 0xB) ∧ Encodes 0x8ABE (.shl 0xA 0xB) ∧
  Encodes 0x9340 (.sneReg 0x3 0x4) ∧ Encodes 0xA300 (.ldI 0x300) ∧
  Encodes 0xBFFF (.jpV0 0xFFF) ∧ Encodes 0xC30F (.rnd 0x3 0x0F) ∧
  Encodes 0xD12F (.drw 0x1 0x2 0xF) ∧ Encodes 0xE19E (.skp 0x1) ∧ Encodes 0xF10A (.ldVxK 0x1) ∧
  Encodes 0xF033 (.ldB 0x0) ∧
  decodeWord 0x8AB8 = .error .family8 ∧ decodeWord 0x5AB1 = .error .family5 ∧
  decodeWord 0x9AB1 = .error .family9 ∧ decodeWord 0xE19F = .error .familyE ∧
  decodeWord 0xF100 = .error .familyF

/-! ### The step -/

/-- When the two bytes at `pc`, the first one high, decode to an instruction, the step is that
instruction acting on the state after the tick and the fetch advance, with the step's `RND` byte gone
at its end (log entry 4); it stops exactly as the instruction stops. An odd `pc` and the top of
memory are no exception. -/
def Obligations.StepRunsFetchedInstruction : Prop :=
  ∀ (s : State) (i : Instr), decodeWord (opcodeAt s) = .ok i →
    (∀ t, exec i (afterFetch s) = .next t → step s = .next (stepEnd t)) ∧
    (∀ f, exec i (afterFetch s) = .fault f → step s = .fault f) ∧
    (∀ r, exec i (afterFetch s) = .refused r → step s = .refused r)

/-- An unrecognised word is a reported no-op: the report names the word and its address, `pc` keeps
the advanced value, the tick stays, the step's `RND` byte ends with it, nothing else changes (but the
model's own sticky copy of reports, log entry 3). -/
def Obligations.UnrecognisedWordIsReportedNoOp : Prop :=
  ∀ (s : State) (r : DecodeReject), decodeWord (opcodeAt s) = .error r →
    ∃ seen, step s = .next { stepEnd (afterFetch s) with
      report := .unimplementedOpcode (opcodeAt s) (addr12 s.pc 0)
      reportSeen := seen }

/-- Every step ticks both timers once, whatever it executes, unless it executes the write of that
timer; `sound_request` is set exactly when `st` was 1 on entry and is never cleared; and so over any
number of steps without a write `dt` counts down to 0 and stays there. -/
def Obligations.TickIsOncePerStep : Prop :=
  (∀ s t : State, step s = .next t →
    (s.nextInstr.any Instr.writesDt = false → t.dt.toNat = s.dt.toNat - 1) ∧
    (s.nextInstr.any Instr.writesSt = false → t.st.toNat = s.st.toNat - 1) ∧
    (t.soundRequest = true ↔ s.soundRequest = true ∨ s.st.toNat = 1)) ∧
  (∀ (k : Nat) (s t : State), StepsWithout Instr.writesDt k s t → t.dt.toNat = s.dt.toNat - k)

/-- One countdown of the sound timer sets `sound_request` exactly once, in the step that enters with
`st = 1`: over `k` steps without a write of `st` it becomes set iff `1 <= st <= k` (R258). -/
def Obligations.SoundTimerRaisesRequestAtItsEnd : Prop :=
  ∀ (k : Nat) (s t : State), StepsWithout Instr.writesSt k s t →
    t.st.toNat = s.st.toNat - k ∧
    (t.soundRequest = true ↔ s.soundRequest = true ∨ (1 ≤ s.st.toNat ∧ s.st.toNat ≤ k))

/-- What a step reports, exactly (R126, Table R270; SPEC'S DECISIONS D9, D10, D11; kept in the state
as the output port, log entry 2). -/
def Obligations.StepReportsExactly : Prop :=
  ∀ s t : State, step s = .next t → t.report =
    match s.nextInstr with
    | none => .unimplementedOpcode (opcodeAt s) (addr12 s.pc 0)
    | some .ret => if s.sp.toNat = 0 then .stackUnderflow (addr12 s.pc 0) else .none
    | some (.call _) => if s.sp.toNat = 16 then .stackOverflow (addr12 s.pc 0) else .none
    | some _ => .none

/-- MODEL'S CHOICE (log entry 3; D11): the sticky copy is clean after a step iff it was clean before
and the step reported nothing. -/
def Obligations.StickyCopyRemembersReports : Prop :=
  ∀ s t : State, step s = .next t → (t.NoReportSoFar ↔ s.NoReportSoFar ∧ t.report = .none)

/-- A step that does not execute `Cxkk` ignores its `RND` byte, and no step keeps its byte for a later
one (R12, R183, R303): with any two bytes it does the same; with another byte, or none, and another
free byte it does the same but for the model's own counter (log entry 4); after every step no byte is
left. SPEC'S DECISION D15. -/
def Obligations.OnlyRndDependsOnRandomInput : Prop :=
  (∀ (s : State) (b c : Byte), s.nextInstr.any Instr.drawsRnd = false →
    s.stepWith b = s.stepWith c) ∧
  (∀ (s t : State) (input : Option Byte) (k : Nat),
    s.nextInstr.any Instr.drawsRnd = false → step s = .next t →
    step { s with rndInput := input, rndIndex := k } = .next { t with rndIndex := k + 1 }) ∧
  (∀ s t : State, step s = .next t → t.rndInput = none ∧ t.rndIndex = s.rndIndex + 1)

/-! ### Control transfer (`41_control_flow.md`); `s.pc` is the advanced pc -/

/-- `0nnn` and `1nnn` set `pc` to `nnn` and change nothing else; every `nnn` is accepted, but the two
words of `00E0` and `00EE` are not `0nnn`. A `1nnn` at its own address is a self-loop: a step of it
changes only what the tick changes (and the `RND` port, log entry 4), and the next step fetches it
again. -/
def Obligations.JumpsGoToTheirTarget : Prop :=
  ∀ (nnn : Addr) (s : State),
    exec (.jp nnn) s = .next { s with pc := BitVec.ofNat 16 nnn.toNat } ∧
    Encodes (0x1000 + nnn.toNat) (.jp nnn) ∧
    (s.nextInstr = some (.jp nnn) → s.pc.toNat = nnn.toNat →
      step s = .next { stepEnd (afterFetch s) with pc := s.pc } ∧
      ({ stepEnd (afterFetch s) with pc := s.pc } : State).nextInstr = some (.jp nnn)) ∧
    exec (.sys nnn) s = .next { s with pc := BitVec.ofNat 16 nnn.toNat } ∧
    (nnn.toNat ≠ 0x0E0 → nnn.toNat ≠ 0x0EE → Encodes nnn.toNat (.sys nnn))

/-- `Bnnn` adds `V0`, whatever the top digit of `nnn`, modulo 4096. SPEC'S DECISION D2. -/
def Obligations.JumpWithOffsetAddsV0 : Prop :=
  ∀ (nnn : Addr) (s : State),
    exec (.jpV0 nnn) s =
      .next { s with pc := BitVec.ofNat 16 ((nnn.toNat + (s.reg 0).toNat) % 4096) }

/-- The four compare skips: `pc` moves two further on exactly when the condition holds; nothing else
changes. -/
def Obligations.SkipsFollowTheirComparison : Prop :=
  ∀ (x y : Nibble) (kk : Byte) (s : State),
    exec (.seImm x kk) s = .next { s with pc := if s.reg x = kk then plus12 s.pc 2 else s.pc } ∧
    exec (.sneImm x kk) s = .next { s with pc := if s.reg x = kk then s.pc else plus12 s.pc 2 } ∧
    exec (.seReg x y) s =
      .next { s with pc := if s.reg x = s.reg y then plus12 s.pc 2 else s.pc } ∧
    exec (.sneReg x y) s =
      .next { s with pc := if s.reg x = s.reg y then s.pc else plus12 s.pc 2 } ∧
    Encodes (0x3000 + 0x100 * x.toNat + kk.toNat) (.seImm x kk) ∧
    Encodes (0x4000 + 0x100 * x.toNat + kk.toNat) (.sneImm x kk) ∧
    Encodes (0x5000 + 0x100 * x.toNat + 0x10 * y.toNat) (.seReg x y) ∧
    Encodes (0x9000 + 0x100 * x.toNat + 0x10 * y.toNat) (.sneReg x y)

/-- `2nnn` with room on the stack: the advanced pc goes into slot `sp`, `sp` grows by one, `pc` is
`nnn`; the other slots and all other state are unchanged (the case R144 gives for `sp` below 16). -/
def Obligations.CallPushesReturnAddress : Prop :=
  ∀ (nnn : Addr) (s : State) (h : s.sp.toNat < 16), ∃ t, exec (.call nnn) s = .next t ∧
    t.pc.toNat = nnn.toNat ∧ t.sp.toNat = s.sp.toNat + 1 ∧ t.stack[s.sp.toNat]'h = s.pc ∧
    (∀ (k : Nat) (hk : k < 16), k ≠ s.sp.toNat → t.stack[k]'hk = s.stack[k]'hk) ∧
    t = { s with pc := t.pc, sp := t.sp, stack := t.stack }

/-- `00EE` with something on the stack: `sp` shrinks by one, `pc` is the slot at the new `sp`, which
keeps its value; nothing else changes (the case R141 gives for `sp` above 0). A slot holds a 12-bit
address in every state that meets the invariants. -/
def Obligations.ReturnPopsReturnAddress : Prop :=
  ∀ (s : State) (_ : 0 < s.sp.toNat) (_ : s.sp.toNat ≤ 16), ∃ t, exec .ret s = .next t ∧
    t.sp.toNat = s.sp.toNat - 1 ∧
    t.pc.toNat = (s.stack[s.sp.toNat - 1]'(by omega)).toNat % 4096 ∧
    t = { s with pc := t.pc, sp := t.sp }

/-- `2nnn` at `sp = 16` and `00EE` at `sp = 0` are reported no-ops: nothing is pushed or popped, `pc`
keeps the advanced value. SPEC'S DECISIONS D9, D10, D11; the sticky copy is log entry 3. -/
def Obligations.StackConditionsAreReportedNoOps : Prop :=
  (∀ (nnn : Addr) (s : State), s.sp.toNat = 16 →
    exec (.call nnn) s = .next { s with
      report := .stackOverflow (addr12 s.pc 4094)
      reportSeen := { s.reportSeen with stackOverflow := true } }) ∧
  (∀ s : State, s.sp.toNat = 0 →
    exec .ret s = .next { s with
      report := .stackUnderflow (addr12 s.pc 4094)
      reportSeen := { s.reportSeen with stackUnderflow := true } })

/-- MODEL'S CHOICE (log entry 6): with `sp` in 17..31, which no run reaches (R27), `2nnn` and `00EE`
stop with the fault of a stack slot that does not exist; and exactly they fault, exactly there. -/
def Obligations.OnlyImpossibleStackDepthsFault : Prop :=
  ∀ (i : Instr) (s : State) (f : Fault),
    exec i s = .fault f ↔ f = .noStackSlot ∧ i.movesSp = true ∧ 16 < s.sp.toNat

/-- `2nnn` and then, from any state with that stack, `00EE` resumes at the word after the `2nnn`
(`95_test_vectors.md` S6, `90_conflicts.md` C10). -/
def Obligations.ReturnResumesAfterCall : Prop :=
  ∀ (nnn : Addr) (s t u v : State), s.sp.toNat < 16 → s.pc.toNat < 4096 →
    exec (.call nnn) s = .next t → u.sp = t.sp → u.stack = t.stack → exec .ret u = .next v →
    v.pc = s.pc ∧ v.sp = s.sp

/-! ### Loads, ALU, random (`42_alu.md`) -/

/-- `6xkk`, `7xkk` and `8xy0`: the destination's new value; the add wraps and writes no flag; every
other register and all other state is unchanged. -/
def Obligations.LoadsAndAddImmediate : Prop :=
  ∀ (x y : Nibble) (kk : Byte) (s : State),
    (∃ t, exec (.ldImm x kk) s = .next t ∧ t.reg x = kk ∧
      (∀ z, z ≠ x → t.reg z = s.reg z) ∧ t = { s with v := t.v }) ∧
    (∃ t, exec (.addImm x kk) s = .next t ∧
      (t.reg x).toNat = ((s.reg x).toNat + kk.toNat) % 256 ∧
      (∀ z, z ≠ x → t.reg z = s.reg z) ∧ t = { s with v := t.v }) ∧
    (∃ t, exec (.ldReg x y) s = .next t ∧ t.reg x = s.reg y ∧
      (∀ z, z ≠ x → t.reg z = s.reg z) ∧ t = { s with v := t.v }) ∧
    Encodes (0x6000 + 0x100 * x.toNat + kk.toNat) (.ldImm x kk) ∧
    Encodes (0x7000 + 0x100 * x.toNat + kk.toNat) (.addImm x kk) ∧
    Encodes (0x8000 + 0x100 * x.toNat + 0x10 * y.toNat) (.ldReg x y)

/-- `8xy1`, `8xy2`, `8xy3`: bit by bit; `VF` is not written unless it is the destination. SPEC'S
DECISION D30. -/
def Obligations.LogicIsBitwiseWithoutFlag : Prop :=
  ∀ (x y : Nibble) (s : State),
    (∃ t, exec (.orReg x y) s = .next t ∧
      (∀ b, (t.reg x).getLsbD b = ((s.reg x).getLsbD b || (s.reg y).getLsbD b)) ∧
      (∀ z, z ≠ x → t.reg z = s.reg z) ∧ t = { s with v := t.v }) ∧
    (∃ t, exec (.andReg x y) s = .next t ∧
      (∀ b, (t.reg x).getLsbD b = ((s.reg x).getLsbD b && (s.reg y).getLsbD b)) ∧
      (∀ z, z ≠ x → t.reg z = s.reg z) ∧ t = { s with v := t.v }) ∧
    (∃ t, exec (.xorReg x y) s = .next t ∧
      (∀ b, (t.reg x).getLsbD b = ((s.reg x).getLsbD b ^^ (s.reg y).getLsbD b)) ∧
      (∀ z, z ≠ x → t.reg z = s.reg z) ∧ t = { s with v := t.v })

/-- `8xy4`: the sum modulo 256 and the carry, both from the operands before the instruction, `y = F`
included; with `x = F` the result wins (SPEC'S DECISION D5). -/
def Obligations.AddSetsCarry : Prop :=
  ∀ (x y : Nibble) (s : State), ∃ t, exec (.addReg x y) s = .next t ∧
    (t.reg x).toNat = ((s.reg x).toNat + (s.reg y).toNat) % 256 ∧
    (x ≠ 0xF → (t.reg 0xF).toNat = ((s.reg x).toNat + (s.reg y).toNat) / 256) ∧
    (∀ z, z ≠ x → z ≠ 0xF → t.reg z = s.reg z) ∧ t = { s with v := t.v }

/-- `8xy5` and `8xy7`: the difference modulo 256 and the not-borrow flag, equality counting as no
borrow; with `x = F` the result wins (SPEC'S DECISION D5). -/
def Obligations.SubtractionsSetNotBorrow : Prop :=
  ∀ (x y : Nibble) (s : State),
    (∃ t, exec (.sub x y) s = .next t ∧
      (t.reg x).toNat = ((s.reg x).toNat + 256 - (s.reg y).toNat) % 256 ∧
      (x ≠ 0xF → t.reg 0xF = if (s.reg y).toNat ≤ (s.reg x).toNat then 1 else 0) ∧
      (∀ z, z ≠ x → z ≠ 0xF → t.reg z = s.reg z) ∧ t = { s with v := t.v }) ∧
    (∃ t, exec (.subn x y) s = .next t ∧
      (t.reg x).toNat = ((s.reg y).toNat + 256 - (s.reg x).toNat) % 256 ∧
      (x ≠ 0xF → t.reg 0xF = if (s.reg x).toNat ≤ (s.reg y).toNat then 1 else 0) ∧
      (∀ z, z ≠ x → z ≠ 0xF → t.reg z = s.reg z) ∧ t = { s with v := t.v })

/-- `8xy6` and `8xyE`: `Vx` halved or doubled modulo 256, the bit shifted out in `VF` as 0 or 1,
whatever `y` and `V[y]`; with `x = F` the result wins (SPEC'S DECISIONS D5, D7). -/
def Obligations.ShiftsUseVxAlone : Prop :=
  ∀ (x y : Nibble) (s : State),
    (∃ t, exec (.shr x y) s = .next t ∧ (t.reg x).toNat = (s.reg x).toNat / 2 ∧
      (x ≠ 0xF → (t.reg 0xF).toNat = (s.reg x).toNat % 2) ∧
      (∀ z, z ≠ x → z ≠ 0xF → t.reg z = s.reg z) ∧ t = { s with v := t.v }) ∧
    (∃ t, exec (.shl x y) s = .next t ∧ (t.reg x).toNat = 2 * (s.reg x).toNat % 256 ∧
      (x ≠ 0xF → (t.reg 0xF).toNat = (s.reg x).toNat / 128) ∧
      (∀ z, z ≠ x → z ≠ 0xF → t.reg z = s.reg z) ∧ t = { s with v := t.v })

/-- `Cxkk`: the `RND` byte of its own step masked by `kk`, whatever that byte is: the one the host
presented to this step or, with none presented, a free value (R183; log entry 4). SPEC'S DECISION
D15. -/
def Obligations.RandomByteIsMasked : Prop :=
  ∀ (x : Nibble) (kk : Byte) (s : State),
    (∀ b, s.rndInput = some b → ∃ t, exec (.rnd x kk) s = .next t ∧
      (∀ j, (t.reg x).getLsbD j = (b.getLsbD j && kk.getLsbD j)) ∧
      (∀ z, z ≠ x → t.reg z = s.reg z) ∧ t = { s with v := t.v }) ∧
    (s.rndInput = none → ∃ t, exec (.rnd x kk) s = .next t ∧
      (∀ j, (t.reg x).getLsbD j = ((Config.randomByte s.rndIndex).getLsbD j && kk.getLsbD j)) ∧
      (∀ z, z ≠ x → t.reg z = s.reg z) ∧ t = { s with v := t.v }) ∧
    (s.nextInstr = some (.rnd x kk) → ∀ b, ∃ t, s.stepWith b = .next t ∧
      (∀ j, (t.reg x).getLsbD j = (b.getLsbD j && kk.getLsbD j)) ∧
      (∀ z, z ≠ x → t.reg z = s.reg z))

/-! ### Index and memory (`43_index_memory.md`) -/

/-- `Annn` and `Fx29`: `I` is `nnn`, or five times the low digit of `Vx`; nothing else changes. -/
def Obligations.IndexLoads : Prop :=
  ∀ (x : Nibble) (nnn : Addr) (s : State),
    exec (.ldI nnn) s = .next { s with i := BitVec.ofNat 16 nnn.toNat } ∧
    exec (.ldF x) s = .next { s with i := BitVec.ofNat 16 ((s.reg x).toNat % 16 * 5) } ∧
    Encodes (0xA000 + nnn.toNat) (.ldI nnn) ∧
    Encodes (0xF029 + 0x100 * x.toNat) (.ldF x)

/-- `Fx1E`: `I` grows by `Vx` modulo 4096, without a flag. SPEC'S DECISION D2. -/
def Obligations.IndexAddWraps : Prop :=
  ∀ (x : Nibble) (s : State),
    exec (.addI x) s = .next { s with i := plus12 s.i (s.reg x).toNat }

/-- `Fx33`: the three decimal digits of `Vx` at `I`, `I+1`, `I+2` modulo 4096; a digit whose address
lies in the font region is discarded; every other byte reads as before; only `mem` changes. SPEC'S
DECISIONS D3, D6, D16. -/
def Obligations.BcdStoresThreeDigits : Prop :=
  ∀ (x : Nibble) (s : State), ∃ t, exec (.ldB x) s = .next t ∧ t = { s with mem := t.mem } ∧
    (∀ a, (∀ k, k < 3 → a % 4096 ≠ effAddr s.i k) → t.memRead a = s.memRead a) ∧
    (∀ k, k < 3 → effAddr s.i k < 80 → t.memRead (effAddr s.i k) = s.memRead (effAddr s.i k)) ∧
    (s.mem.wf = true →
      (80 ≤ effAddr s.i 0 → (t.memRead (effAddr s.i 0)).toNat = (s.reg x).toNat / 100) ∧
      (80 ≤ effAddr s.i 1 → (t.memRead (effAddr s.i 1)).toNat = (s.reg x).toNat / 10 % 10) ∧
      (80 ≤ effAddr s.i 2 → (t.memRead (effAddr s.i 2)).toNat = (s.reg x).toNat % 10))

/-- `Fx55`: `V0..Vx` at `I..I+x` modulo 4096, byte by byte, those in the font region discarded; every
other byte reads as before; only `mem` changes. SPEC'S DECISIONS D3, D16, D30. -/
def Obligations.BlockStoreWritesRegisters : Prop :=
  ∀ (x : Nibble) (s : State), ∃ t, exec (.ldMemVx x) s = .next t ∧ t = { s with mem := t.mem } ∧
    (∀ a, (∀ k, k ≤ x.toNat → a % 4096 ≠ effAddr s.i k) → t.memRead a = s.memRead a) ∧
    (∀ k, k ≤ x.toNat → effAddr s.i k < 80 →
      t.memRead (effAddr s.i k) = s.memRead (effAddr s.i k)) ∧
    (s.mem.wf = true → ∀ y : Nibble, y.toNat ≤ x.toNat → 80 ≤ effAddr s.i y.toNat →
      t.memRead (effAddr s.i y.toNat) = s.reg y)

/-- `Fx65`: `V0..Vx` from `I..I+x` modulo 4096, the font region included; the registers above `Vx` and
all other state are unchanged. SPEC'S DECISIONS D3, D30. -/
def Obligations.BlockLoadReadsRegisters : Prop :=
  ∀ (x : Nibble) (s : State), ∃ t, exec (.ldVxMem x) s = .next t ∧
    (∀ y : Nibble, t.reg y =
      if y.toNat ≤ x.toNat then s.memRead (effAddr s.i y.toNat) else s.reg y) ∧
    t = { s with v := t.v }

/-- A stored instruction is fetched as stored by the very next step, with nothing in between (R71):
when `Fx55` stores two registers over the word at `pc`, outside the font, that word is the next
opcode. -/
def Obligations.NextFetchSeesStore : Prop :=
  ∀ (x y : Nibble) (s t : State), s.mem.wf = true → exec (.ldMemVx x) s = .next t →
    y.toNat + 1 ≤ x.toNat → effAddr s.i y.toNat = s.pc.toNat → 80 ≤ s.pc.toNat →
    s.pc.toNat + 1 < 4096 →
    (opcodeAt t).toNat = 256 * (s.reg y).toNat + (s.reg (y + 1)).toNat

/-! ### Display (`44_display.md`) -/

/-- `00E0`: all 256 display bytes are zero; nothing else changes. -/
def Obligations.ClearMakesDisplayDark : Prop :=
  Encodes 0x00E0 .cls ∧
  ∀ s : State, ∃ t, exec .cls s = .next t ∧ (∀ (k : Nat) (h : k < 256), t.display[k]'h = 0) ∧
    t = { s with display := t.display }

/-- `Dxyn` at the level of pixels (R228): the origin wraps, the sprite is clipped at the right and the
bottom edge, each visible pixel is XORed with its sprite bit, `VF` is 1 iff some lit pixel met a 1
bit, else 0; coordinates and sprite are read before `VF` is written; `I`, `mem`, the other registers
and all other state are unchanged. The binding of the operands is log entry 8. SPEC'S DECISIONS D3,
D17, D18, D19. -/
def Obligations.DrawIsPixelXor : Prop :=
  ∀ (x y n : Nibble) (s : State), ∃ t, exec (.drw x y n) s = .next t ∧
    (∀ px py, px < 64 → py < 32 →
      (t.display.pixel px py = true ↔
        ¬ (s.display.pixel px py = true ↔
          SpriteLit s n ((s.reg x).toNat % 64) ((s.reg y).toNat % 32) px py))) ∧
    (t.reg 0xF = 1 ∨ t.reg 0xF = 0) ∧
    (t.reg 0xF = 1 ↔ ∃ px py, px < 64 ∧ py < 32 ∧ s.display.pixel px py = true ∧
      SpriteLit s n ((s.reg x).toNat % 64) ((s.reg y).toNat % 32) px py) ∧
    (∀ z, z ≠ 0xF → t.reg z = s.reg z) ∧ t = { s with v := t.v, display := t.display }

/-- Drawing the same sprite twice at the same position restores every pixel, and the second draw
collides iff some visible sprite bit lies on a pixel that was dark before the first (R229). The
binding of the operands is log entry 8. SPEC'S DECISIONS D3, D17, D18, D19. -/
def Obligations.DrawTwiceRestoresDisplay : Prop :=
  ∀ (x y n : Nibble) (s t u : State),
    exec (.drw x y n) s = .next t → t.reg x = s.reg x → t.reg y = s.reg y →
    exec (.drw x y n) t = .next u →
    u.display = s.display ∧
    (u.reg 0xF = 1 ↔ ∃ px py, px < 64 ∧ py < 32 ∧ s.display.pixel px py = false ∧
      SpriteLit s n ((s.reg x).toNat % 64) ((s.reg y).toNat % 32) px py)

/-! ### Timers and keys (`45_timers_keyboard.md`) -/

/-- `Fx07`, `Fx15`, `Fx18` move one byte between `Vx` and a timer and change nothing else; through a
step, `Fx07` reads the value after that step's tick. -/
def Obligations.TimerAccess : Prop :=
  ∀ (x : Nibble) (s : State),
    (∃ t, exec (.ldVxDt x) s = .next t ∧ t.reg x = s.dt ∧ (∀ z, z ≠ x → t.reg z = s.reg z) ∧
      t = { s with v := t.v }) ∧
    exec (.ldDtVx x) s = .next { s with dt := s.reg x } ∧
    exec (.ldStVx x) s = .next { s with st := s.reg x } ∧
    (s.nextInstr = some (.ldVxDt x) →
      ∃ t, step s = .next t ∧ (t.reg x).toNat = s.dt.toNat - 1 ∧ t.dt.toNat = s.dt.toNat - 1) ∧
    Encodes (0xF007 + 0x100 * x.toNat) (.ldVxDt x) ∧
    Encodes (0xF015 + 0x100 * x.toNat) (.ldDtVx x) ∧
    Encodes (0xF018 + 0x100 * x.toNat) (.ldStVx x)

/-- `Ex9E` and `ExA1` skip by the state of the key in the low four bits of `Vx`, each exactly when the
other does not, and change nothing else. SPEC'S DECISION D14. -/
def Obligations.KeySkipsFollowTheKey : Prop :=
  ∀ (x k : Nibble) (s : State), (s.reg x).toNat % 16 = k.toNat →
    exec (.skp x) s = .next { s with pc := if s.keyDown k then plus12 s.pc 2 else s.pc } ∧
    exec (.sknp x) s = .next { s with pc := if s.keyDown k then s.pc else plus12 s.pc 2 }

/-- `Fx0A`: with keys down it writes the smallest one's code to `Vx` and `pc` stays advanced; with none
down it only undoes the fetch advance. SPEC'S DECISION D13. -/
def Obligations.KeyWaitTakesSmallestKey : Prop :=
  (∀ (x k : Nibble) (s : State), s.keyDown k = true →
    (∀ j : Nibble, j.toNat < k.toNat → s.keyDown j = false) →
    ∃ t, exec (.ldVxK x) s = .next t ∧ (t.reg x).toNat = k.toNat ∧
      (∀ z, z ≠ x → t.reg z = s.reg z) ∧ t = { s with v := t.v }) ∧
  (∀ (x : Nibble) (s : State), (∀ k, s.keyDown k = false) →
    exec (.ldVxK x) s = .next { s with pc := plus12 s.pc 4094 })

/-- A waiting step changes nothing but the timers and `sound_request`, by the tick, and leaves `pc` on
the same `Fx0A` (`95_test_vectors.md` S7): this step's report is none and its `RND` byte is gone. -/
def Obligations.WaitingStepChangesOnlyTimers : Prop :=
  ∀ (x : Nibble) (s : State), s.pc.toNat < 4096 → s.nextInstr = some (.ldVxK x) →
    (∀ k, s.keyDown k = false) →
    ∃ t, step s = .next t ∧ t.nextInstr = some (.ldVxK x) ∧
      t = { s with
        dt := t.dt, st := t.st, soundRequest := t.soundRequest, report := .none
        rndInput := none, rndIndex := s.rndIndex + 1 }

/-! ### Frames: what an instruction leaves unchanged -/

/-- Every register that the instruction does not name as its destination, and `VF` unless the
instruction writes the flag, is unchanged (R22, R34). Holds for all 35 instructions. -/
def Obligations.RegistersOutsideDestinationKeep : Prop :=
  ∀ (i : Instr) (s t : State) (y : Nibble), exec i s = .next t → i.mayWriteReg y = false →
    t.reg y = s.reg y

/-- Every byte of memory outside the stored block `I .. I + storeLen - 1` reads as before; for an
instruction that stores nothing that is all of memory (R67). Holds for all 35 instructions. -/
def Obligations.MemoryOutsideStoreKeeps : Prop :=
  ∀ (i : Instr) (s t : State) (a : Nat), exec i s = .next t →
    (∀ k, k < i.storeLen → a % 4096 ≠ effAddr s.i k) → t.memRead a = s.memRead a

/-- `pc`, `I`, `sp`, the stack slots, the timers, the display, the keys, `sound_request`, the font
region and the ports change only by the instructions the spec names for each (R25, R27, R28, Table R35, R60). Holds for
all 35 instructions. The ports are log entries 2, 3 and 4. -/
def Obligations.OtherStateChangesOnlyByItsInstructions : Prop :=
  ∀ (i : Instr) (s t : State), exec i s = .next t →
    (i.mayMovePc = false → t.pc = s.pc) ∧ (i.writesI = false → t.i = s.i) ∧
    (i.movesSp = false → t.sp = s.sp) ∧
    (∀ (k : Nat) (h : k < 16), i.isCall = false ∨ k ≠ s.sp.toNat →
      t.stack[k]'h = s.stack[k]'h) ∧
    (i.writesDt = false → t.dt = s.dt) ∧ (i.writesSt = false → t.st = s.st) ∧
    (i.writesDisplay = false → t.display = s.display) ∧ t.keyboard = s.keyboard ∧
    t.soundRequest = s.soundRequest ∧
    (i.movesSp = false → t.report = s.report ∧ t.reportSeen = s.reportSeen) ∧
    t.font = s.font ∧ t.rndInput = s.rndInput ∧ t.rndIndex = s.rndIndex

/-- No step changes a byte of the font region, from any state, canonical memory or not. SPEC'S
DECISION D16. -/
def Obligations.FontRegionNeverChanges : Prop :=
  ∀ (s t : State) (a : Nat), step s = .next t → a % 4096 < 80 → t.memRead a = s.memRead a

/-! ### The host's ports -/

/-- `set_key` sets one key and no other, and a code outside 0..15 has no effect; `clear_sound` clears
`sound_request` alone. SPEC'S DECISIONS D24, D25. -/
def Obligations.HostSetsKeysAndClearsSound : Prop :=
  (∀ (s : State) (k : Nat) (pressed : Bool) (j : Nibble),
    (s.setKey k pressed).keyDown j = if j.toNat = k then pressed else s.keyDown j) ∧
  (∀ (s : State) (k : Nat) (pressed : Bool),
    s.setKey k pressed = { s with keyboard := (s.setKey k pressed).keyboard }) ∧
  (∀ (s : State) (k : Nat) (pressed : Bool), 16 ≤ k → s.setKey k pressed = s) ∧
  (∀ s : State, s.clearSound = { s with soundRequest := false })

/-- `load` after reset and before the first step: up to 3584 bytes are accepted, byte `k` lands at
0x200 + k, every other byte reads as before and nothing else of the machine changes; more are refused.
SPEC'S DECISION D8. Where no load is to be had any more it is refused (D27, log entry 7). A session
starts with the reset machine and a load to be had. -/
def Obligations.LoadPlacesRom : Prop :=
  (∀ (x : Session) (rom : List Byte), x.fresh = true → x.machine.mem.wf = true →
    rom.length ≤ 3584 → ∃ y, x.load rom = .ok y ∧
      (∀ k, k < rom.length → y.machine.memRead (0x200 + k) = rom.getD k 0) ∧
      (∀ a, a < 4096 → (a < 0x200 ∨ 0x200 + rom.length ≤ a) →
        y.machine.memRead a = x.machine.memRead a) ∧
      y.machine = { x.machine with mem := y.machine.mem }) ∧
  (∀ (x : Session) (rom : List Byte), x.fresh = true → 3584 < rom.length →
    x.load rom = .error .tooLarge) ∧
  (∀ (x : Session) (rom : List Byte), x.fresh = false → x.load rom = .error .notFreshlyReset) ∧
  (∀ font : FontTable, (Session.start font).machine = State.resetWith font ∧
    (Session.start font).fresh = true)

/-- A load is had once, before the first step (R74; SPEC'S DECISION D27, log entry 7): after a load
that succeeded, an empty or all-zero ROM included, or after a step, every later load is refused,
whatever else happens; and a load that fails leaves the session as it was. -/
def Obligations.OneLoadBeforeTheFirstStep : Prop :=
  (∀ (x y : Session) (b : Byte), x.event (.step b) = .next y → y.fresh = false) ∧
  (∀ (x y : Session) (rom : List Byte), x.load rom = .ok y → y.fresh = false) ∧
  (∀ (x y : Session) (events : List Event) (rom : List Byte), x.fresh = false →
    x.run events = .next y → y.load rom = .error .notFreshlyReset) ∧
  (∀ (x : Session) (rom : List Byte) (e : LoadError), x.load rom = .error e →
    x.event (.load rom) = .next x)

/-- ROM bytes 0 and 1 are the first instruction word, big-endian, for every `FONT_TABLE` (R302). -/
def Obligations.LoadedProgramStartsAtItsFirstWord : Prop :=
  ∀ (font : FontTable) (rom : List Byte) (y : Session), 2 ≤ rom.length →
    (Session.start font).load rom = .ok y →
    (opcodeAt y.machine).toNat = 256 * (rom.getD 0 0).toNat + (rom.getD 1 0).toNat
end

