-- ==== Sys2Proof/Laws/Decode.lean ====
section
/-!
SUPPORT. The fields of a packed word and the word of its fields: the decoder's and the encoder's
tables meet in these lemmas, each through the value of the word.
-/

namespace Sys2Proof

/-! ### Fields and packed words as numbers -/

theorem fieldC_toNat (w : Word) : (fieldC w).toNat = w.toNat / 4096 % 16 := by
  simp [fieldC, BitVec.extractLsb'_toNat, Nat.shiftRight_eq_div_pow]

theorem fieldX_toNat (w : Word) : (fieldX w).toNat = w.toNat / 256 % 16 := by
  simp [fieldX, BitVec.extractLsb'_toNat, Nat.shiftRight_eq_div_pow]

theorem fieldY_toNat (w : Word) : (fieldY w).toNat = w.toNat / 16 % 16 := by
  simp [fieldY, BitVec.extractLsb'_toNat, Nat.shiftRight_eq_div_pow]

theorem fieldN_toNat (w : Word) : (fieldN w).toNat = w.toNat % 16 := by
  simp [fieldN, BitVec.extractLsb'_toNat, Nat.shiftRight_eq_div_pow]

theorem fieldKK_toNat (w : Word) : (fieldKK w).toNat = w.toNat % 256 := by
  simp [fieldKK, BitVec.extractLsb'_toNat, Nat.shiftRight_eq_div_pow]

theorem fieldNNN_toNat (w : Word) : (fieldNNN w).toNat = w.toNat % 4096 := by
  simp [fieldNNN, BitVec.extractLsb'_toNat, Nat.shiftRight_eq_div_pow]

theorem append_toNat {m n : Nat} (a : BitVec m) (b : BitVec n) :
    (a ++ b).toNat = a.toNat * 2 ^ n + b.toNat := by
  rw [BitVec.toNat_append, ← Nat.shiftLeft_add_eq_or_of_lt b.isLt, Nat.shiftLeft_eq]

theorem packNNN_toNat (c : Nibble) (nnn : Addr) :
    (packNNN c nnn).toNat = c.toNat * 4096 + nnn.toNat := append_toNat c nnn

theorem packXKK_toNat (c x : Nibble) (kk : Byte) :
    (packXKK c x kk).toNat = c.toNat * 4096 + x.toNat * 256 + kk.toNat := by
  refine (append_toNat (c ++ x) kk).trans ?_
  rw [append_toNat c x]
  omega

theorem packXYN_toNat (c x y n : Nibble) :
    (packXYN c x y n).toNat = c.toNat * 4096 + x.toNat * 256 + y.toNat * 16 + n.toNat := by
  refine (append_toNat (c ++ x) (y ++ n)).trans ?_
  rw [append_toNat c x, append_toNat y n]
  omega

theorem wordOfBytes_toNat (hi lo : Byte) :
    (wordOfBytes hi lo).toNat = hi.toNat * 256 + lo.toNat := append_toNat hi lo

/-! ### Fields of a packed word -/

@[simp] theorem fieldC_packNNN (c : Nibble) (nnn : Addr) : fieldC (packNNN c nnn) = c := by
  apply BitVec.eq_of_toNat_eq
  rw [fieldC_toNat, packNNN_toNat]
  omega

@[simp] theorem fieldNNN_packNNN (c : Nibble) (nnn : Addr) : fieldNNN (packNNN c nnn) = nnn := by
  apply BitVec.eq_of_toNat_eq
  rw [fieldNNN_toNat, packNNN_toNat]
  omega

@[simp] theorem fieldC_packXKK (c x : Nibble) (kk : Byte) : fieldC (packXKK c x kk) = c := by
  apply BitVec.eq_of_toNat_eq
  rw [fieldC_toNat, packXKK_toNat]
  omega

@[simp] theorem fieldX_packXKK (c x : Nibble) (kk : Byte) : fieldX (packXKK c x kk) = x := by
  apply BitVec.eq_of_toNat_eq
  rw [fieldX_toNat, packXKK_toNat]
  omega

@[simp] theorem fieldKK_packXKK (c x : Nibble) (kk : Byte) : fieldKK (packXKK c x kk) = kk := by
  apply BitVec.eq_of_toNat_eq
  rw [fieldKK_toNat, packXKK_toNat]
  omega

@[simp] theorem fieldC_packXYN (c x y n : Nibble) : fieldC (packXYN c x y n) = c := by
  apply BitVec.eq_of_toNat_eq
  rw [fieldC_toNat, packXYN_toNat]
  omega

@[simp] theorem fieldX_packXYN (c x y n : Nibble) : fieldX (packXYN c x y n) = x := by
  apply BitVec.eq_of_toNat_eq
  rw [fieldX_toNat, packXYN_toNat]
  omega

@[simp] theorem fieldY_packXYN (c x y n : Nibble) : fieldY (packXYN c x y n) = y := by
  apply BitVec.eq_of_toNat_eq
  rw [fieldY_toNat, packXYN_toNat]
  omega

@[simp] theorem fieldN_packXYN (c x y n : Nibble) : fieldN (packXYN c x y n) = n := by
  apply BitVec.eq_of_toNat_eq
  rw [fieldN_toNat, packXYN_toNat]
  omega

/-! ### A word is its fields, packed -/

theorem packNNN_fields (w : Word) : packNNN (fieldC w) (fieldNNN w) = w := by
  apply BitVec.eq_of_toNat_eq
  rw [packNNN_toNat, fieldC_toNat, fieldNNN_toNat]
  omega

theorem packXKK_fields (w : Word) : packXKK (fieldC w) (fieldX w) (fieldKK w) = w := by
  apply BitVec.eq_of_toNat_eq
  rw [packXKK_toNat, fieldC_toNat, fieldX_toNat, fieldKK_toNat]
  omega

theorem packXYN_fields (w : Word) :
    packXYN (fieldC w) (fieldX w) (fieldY w) (fieldN w) = w := by
  apply BitVec.eq_of_toNat_eq
  rw [packXYN_toNat, fieldC_toNat, fieldX_toNat, fieldY_toNat, fieldN_toNat]
  omega

/-! ### Bytes and family 0 -/

/-- The bytes of a word, in memory order, are read back as the word (R63). -/
theorem wordOfBytes_bytes (w : Word) :
    wordOfBytes (w.extractLsb' 8 8) (w.extractLsb' 0 8) = w := by
  apply BitVec.eq_of_toNat_eq
  rw [wordOfBytes_toNat]
  simp only [BitVec.extractLsb'_toNat, Nat.shiftRight_eq_div_pow]
  omega

theorem packNNN_inj (c : Nibble) (a b : Addr) : packNNN c a = packNNN c b ↔ a = b :=
  ⟨fun h => by simpa using congrArg fieldNNN h, fun h => by rw [h]⟩

/-- Family 0: the two fixed words, else `SYS` (R94). -/
theorem decodeFamily0_packNNN (nnn : Addr) :
    decodeFamily0 (packNNN 0x0#4 nnn) =
      if nnn = 0x0E0#12 then .cls else if nnn = 0x0EE#12 then .ret else .sys nnn := by
  have h1 : (0x00E0#16 : Word) = packNNN 0x0#4 0x0E0#12 := by decide
  have h2 : (0x00EE#16 : Word) = packNNN 0x0#4 0x0EE#12 := by decide
  simp only [decodeFamily0, h1, h2, packNNN_inj, fieldNNN_packNNN]

/-- Words are equal nibble by nibble. -/
theorem packXYN_inj (c x y n c' x' y' n' : Nibble) :
    packXYN c x y n = packXYN c' x' y' n' ↔ c = c' ∧ x = x' ∧ y = y' ∧ n = n' := by
  constructor
  · intro h
    exact ⟨by simpa using congrArg fieldC h, by simpa using congrArg fieldX h,
      by simpa using congrArg fieldY h, by simpa using congrArg fieldN h⟩
  · rintro ⟨rfl, rfl, rfl, rfl⟩
    rfl

theorem append_and {m n : Nat} (a a' : BitVec m) (b b' : BitVec n) :
    (a ++ b) &&& (a' ++ b') = (a &&& a') ++ (b &&& b') := by
  ext k hk
  simp only [BitVec.getElem_and, BitVec.getElem_append]
  split <;> rfl

/-- A mask acts nibble by nibble (the mask column of Table R97). -/
theorem packXYN_and (c x y n c' x' y' n' : Nibble) :
    packXYN c x y n &&& packXYN c' x' y' n' =
      packXYN (c &&& c') (x &&& x') (y &&& y') (n &&& n') := by
  exact (append_and _ _ _ _).trans (congrArg₂ (· ++ ·) (append_and c c' x x') (append_and y y' n n'))

/-- The decoder as a chain of tests of the family nibble (R94). -/
theorem decodeWord_family (w : Word) :
    decodeWord w =
      if fieldC w = 0x0#4 then .ok (decodeFamily0 w)
      else if fieldC w = 0x1#4 then .ok (.jp (fieldNNN w))
      else if fieldC w = 0x2#4 then .ok (.call (fieldNNN w))
      else if fieldC w = 0x3#4 then .ok (.seImm (fieldX w) (fieldKK w))
      else if fieldC w = 0x4#4 then .ok (.sneImm (fieldX w) (fieldKK w))
      else if fieldC w = 0x5#4 then
        if fieldN w = 0x0#4 then .ok (.seReg (fieldX w) (fieldY w)) else .error .family5
      else if fieldC w = 0x6#4 then .ok (.ldImm (fieldX w) (fieldKK w))
      else if fieldC w = 0x7#4 then .ok (.addImm (fieldX w) (fieldKK w))
      else if fieldC w = 0x8#4 then decodeFamily8 (fieldX w) (fieldY w) (fieldN w)
      else if fieldC w = 0x9#4 then
        if fieldN w = 0x0#4 then .ok (.sneReg (fieldX w) (fieldY w)) else .error .family9
      else if fieldC w = 0xA#4 then .ok (.ldI (fieldNNN w))
      else if fieldC w = 0xB#4 then .ok (.jpV0 (fieldNNN w))
      else if fieldC w = 0xC#4 then .ok (.rnd (fieldX w) (fieldKK w))
      else if fieldC w = 0xD#4 then .ok (.drw (fieldX w) (fieldY w) (fieldN w))
      else if fieldC w = 0xE#4 then decodeFamilyE (fieldX w) (fieldKK w)
      else decodeFamilyF (fieldX w) (fieldKK w) := by
  have hc : fieldC w = BitVec.ofNat 4 (fieldC w).toNat := by simp
  have hk := (fieldC w).isLt
  revert hc hk
  generalize (fieldC w).toNat = k
  intro hc hk
  simp only [decodeWord, hc]
  interval_cases k <;> rfl

end Sys2Proof
end

