-- ==== Sys2Proof/Laws/Memory.lean ====
section
/-!
SUPPORT. The laws of `mem`: a read after a write, what a write leaves alone, and that every memory
operation keeps the canonical form.
-/

namespace Sys2Proof.Machine

/-! ### Entries -/

theorem Memory.read_entry_other {a b : Nat} (w : Byte) (rest : Memory) (h : b ≠ a) :
    (Memory.entry a w rest).read b = rest.read b := by
  unfold Memory.entry
  split
  · rfl
  · simp [Memory.read, Ne.symm h]

theorem Memory.wfFrom_mono {m : Memory} {p q : Nat} (hpq : p ≤ q) (h : Memory.wfFrom q m = true) :
    Memory.wfFrom p m = true := by
  cases m with
  | nil => rfl
  | cons e rest =>
    simp only [Memory.wfFrom, Bool.and_eq_true, decide_eq_true_eq] at h ⊢
    exact ⟨⟨⟨by omega, h.1.1.2⟩, h.1.2⟩, h.2⟩

/-- Below the least address of a canonical list, everything reads as the background. -/
theorem Memory.read_below {m : Memory} {p a : Nat} (h : Memory.wfFrom p m = true) (ha : a < p) :
    m.read a = Memory.background := by
  induction m generalizing p with
  | nil => rfl
  | cons e rest ih =>
    obtain ⟨b, u⟩ := e
    simp only [Memory.wfFrom, Bool.and_eq_true, decide_eq_true_eq] at h
    have hb : b ≠ a := by omega
    simp only [Memory.read, hb, if_false]
    exact ih h.2 (by omega)

theorem Memory.wfFrom_entry {p a : Nat} {w : Byte} {rest : Memory} (hp : p ≤ a)
    (ha : a < Config.memSize) (h : Memory.wfFrom (a + 1) rest = true) :
    Memory.wfFrom p (Memory.entry a w rest) = true := by
  unfold Memory.entry
  split
  · exact Memory.wfFrom_mono (by omega) h
  · next hw =>
    simp only [Memory.wfFrom, Bool.and_eq_true, decide_eq_true_eq, bne_iff_ne]
    exact ⟨⟨⟨hp, ha⟩, hw⟩, h⟩

theorem Memory.read_entry_same {a : Nat} {w : Byte} {rest : Memory}
    (h : Memory.wfFrom (a + 1) rest = true) : (Memory.entry a w rest).read a = w := by
  unfold Memory.entry
  split
  · next hw => rw [Memory.read_below h (by omega), hw]
  · simp [Memory.read]

/-! ### `put` -/

/-- A write leaves every other address alone, on any list. -/
theorem Memory.read_put_other {m : Memory} {a b : Nat} (w : Byte) (h : b ≠ a) :
    (m.put a w).read b = m.read b := by
  induction m with
  | nil => exact Memory.read_entry_other w [] h
  | cons e rest ih =>
    obtain ⟨c, u⟩ := e
    simp only [Memory.put]
    split
    · exact Memory.read_entry_other w _ h
    · split
      · next hc =>
        rw [Memory.read_entry_other w _ h]
        simp [Memory.read, ← hc, Ne.symm h]
      · simp only [Memory.read]
        split
        · rfl
        · exact ih

theorem Memory.wfFrom_put {m : Memory} {p a : Nat} (w : Byte) (hp : p ≤ a)
    (ha : a < Config.memSize) (h : Memory.wfFrom p m = true) :
    Memory.wfFrom p (m.put a w) = true := by
  induction m generalizing p with
  | nil => exact Memory.wfFrom_entry hp ha rfl
  | cons e rest ih =>
    obtain ⟨b, u⟩ := e
    simp only [Memory.wfFrom, Bool.and_eq_true, decide_eq_true_eq, bne_iff_ne] at h
    simp only [Memory.put]
    split
    · refine Memory.wfFrom_entry hp ha ?_
      simp only [Memory.wfFrom, Bool.and_eq_true, decide_eq_true_eq, bne_iff_ne]
      exact ⟨⟨⟨by omega, h.1.1.2⟩, h.1.2⟩, h.2⟩
    · split
      · next hb => exact Memory.wfFrom_entry hp ha (hb ▸ h.2)
      · simp only [Memory.wfFrom, Bool.and_eq_true, decide_eq_true_eq, bne_iff_ne]
        exact ⟨h.1, ih (by omega) h.2⟩

/-- A read after a write to the same address gives the byte written. -/
theorem Memory.read_put_same {m : Memory} {p a : Nat} (w : Byte) (h : Memory.wfFrom p m = true) :
    (m.put a w).read a = w := by
  induction m generalizing p with
  | nil => exact Memory.read_entry_same rfl
  | cons e rest ih =>
    obtain ⟨b, u⟩ := e
    have h' := h
    simp only [Memory.wfFrom, Bool.and_eq_true, decide_eq_true_eq, bne_iff_ne] at h
    simp only [Memory.put]
    split
    · refine Memory.read_entry_same ?_
      simp only [Memory.wfFrom, Bool.and_eq_true, decide_eq_true_eq, bne_iff_ne]
      exact ⟨⟨⟨by omega, h.1.1.2⟩, h.1.2⟩, h.2⟩
    · split
      · next hb => exact Memory.read_entry_same (hb ▸ h.2)
      · next hb =>
        have hb' : b ≠ a := fun e => hb e.symm
        simp only [Memory.read, hb', if_false]
        exact ih h.2

theorem Memory.read_put {m : Memory} (a b : Nat) (w : Byte) (h : m.wf = true) :
    (m.put a w).read b = if b = a then w else m.read b := by
  split
  · next hb => rw [hb]; exact Memory.read_put_same w h
  · next hb => exact Memory.read_put_other w hb

theorem Memory.wf_put {m : Memory} {a : Nat} (w : Byte) (hf : Config.fontSize ≤ a)
    (ha : a < Config.memSize) (h : m.wf = true) : (m.put a w).wf = true :=
  Memory.wfFrom_put w hf ha h

/-! ### `store` and `putAll` -/

theorem Memory.wf_store {m : Memory} {a : Nat} (w : Byte) (ha : a < Config.memSize)
    (h : m.wf = true) : (m.store a w).wf = true := by
  unfold Memory.store
  split
  · exact h
  · next hf => exact Memory.wf_put w (by simpa [inFont] using hf) ha h

theorem Memory.read_store_other {m : Memory} {a b : Nat} (w : Byte) (h : b ≠ a) :
    (m.store a w).read b = m.read b := by
  unfold Memory.store
  split
  · rfl
  · exact Memory.read_put_other w h

theorem Memory.read_store {m : Memory} (a b : Nat) (w : Byte) (h : m.wf = true) :
    (m.store a w).read b = if b = a ∧ Config.fontSize ≤ a then w else m.read b := by
  unfold Memory.store inFont
  by_cases ha : a < Config.fontSize
  · simp [ha]
  · simp only [decide_eq_true_eq, ha, if_false]
    rw [Memory.read_put a b w h]
    have : Config.fontSize ≤ a := by omega
    simp [this]

theorem Memory.wf_putAll {m : Memory} {a : Nat} {bytes : List Byte} (hf : Config.fontSize ≤ a)
    (ha : a + bytes.length ≤ Config.memSize) (h : m.wf = true) : (m.putAll a bytes).wf = true := by
  induction bytes generalizing a with
  | nil => exact h
  | cons w rest ih =>
    simp only [List.length_cons] at ha
    exact Memory.wf_put w hf (by omega) (ih (by omega) (by omega))

/-- What reads where after a block of bytes was placed from `a` upward. -/
theorem Memory.read_putAll {m : Memory} {a : Nat} {bytes : List Byte} (b : Nat)
    (hf : Config.fontSize ≤ a) (ha : a + bytes.length ≤ Config.memSize) (h : m.wf = true) :
    (m.putAll a bytes).read b =
      if a ≤ b ∧ b < a + bytes.length then bytes.getD (b - a) 0 else m.read b := by
  induction bytes generalizing a with
  | nil => simp [Memory.putAll]
  | cons w rest ih =>
    simp only [List.length_cons] at ha ⊢
    have hrest : a + 1 + rest.length ≤ Config.memSize := by omega
    simp only [Memory.putAll]
    rw [Memory.read_put a b w (Memory.wf_putAll (by omega) hrest h), ih (by omega) hrest]
    by_cases hb : b = a
    · subst hb; simp
    · by_cases hlt : a < b
      · have e : b - a = b - (a + 1) + 1 := by omega
        simp only [hb, if_false, e, List.getD_cons_succ]
        congr 1
        simp only [eq_iff_iff]; omega
      · have h1 : ¬ (a + 1 ≤ b ∧ b < a + 1 + rest.length) := by omega
        have h2 : ¬ (a ≤ b ∧ b < a + (rest.length + 1)) := by omega
        simp only [hb, h1, h2, if_false]

end Sys2Proof.Machine
end

