-- ==== Sys2Proof/Laws/State.lean ====
section
/-!
SUPPORT. One lemma per field of `State` per update, true by `rfl`: later proofs never unfold a
record update.
-/

namespace Sys2Proof.Machine

/-! ### `State.setReg` -/

@[simp] theorem State.setReg_v (s : State) (x : Nibble) (b : Byte) :
    (s.setReg x b).v = s.v.set x.toNat b x.isLt := rfl
@[simp] theorem State.setReg_pc (s : State) (x : Nibble) (b : Byte) :
    (s.setReg x b).pc = s.pc := rfl
@[simp] theorem State.setReg_i (s : State) (x : Nibble) (b : Byte) : (s.setReg x b).i = s.i := rfl
@[simp] theorem State.setReg_sp (s : State) (x : Nibble) (b : Byte) :
    (s.setReg x b).sp = s.sp := rfl
@[simp] theorem State.setReg_stack (s : State) (x : Nibble) (b : Byte) :
    (s.setReg x b).stack = s.stack := rfl
@[simp] theorem State.setReg_dt (s : State) (x : Nibble) (b : Byte) :
    (s.setReg x b).dt = s.dt := rfl
@[simp] theorem State.setReg_st (s : State) (x : Nibble) (b : Byte) :
    (s.setReg x b).st = s.st := rfl
@[simp] theorem State.setReg_font (s : State) (x : Nibble) (b : Byte) :
    (s.setReg x b).font = s.font := rfl
@[simp] theorem State.setReg_mem (s : State) (x : Nibble) (b : Byte) :
    (s.setReg x b).mem = s.mem := rfl
@[simp] theorem State.setReg_display (s : State) (x : Nibble) (b : Byte) :
    (s.setReg x b).display = s.display := rfl
@[simp] theorem State.setReg_keyboard (s : State) (x : Nibble) (b : Byte) :
    (s.setReg x b).keyboard = s.keyboard := rfl
@[simp] theorem State.setReg_soundRequest (s : State) (x : Nibble) (b : Byte) :
    (s.setReg x b).soundRequest = s.soundRequest := rfl
@[simp] theorem State.setReg_report (s : State) (x : Nibble) (b : Byte) :
    (s.setReg x b).report = s.report := rfl
@[simp] theorem State.setReg_reportSeen (s : State) (x : Nibble) (b : Byte) :
    (s.setReg x b).reportSeen = s.reportSeen := rfl
@[simp] theorem State.setReg_rndInput (s : State) (x : Nibble) (b : Byte) :
    (s.setReg x b).rndInput = s.rndInput := rfl
@[simp] theorem State.setReg_rndIndex (s : State) (x : Nibble) (b : Byte) :
    (s.setReg x b).rndIndex = s.rndIndex := rfl

/-! ### `State.setPc` -/

@[simp] theorem State.setPc_v (s : State) (a : Word) : (s.setPc a).v = s.v := rfl
@[simp] theorem State.setPc_pc (s : State) (a : Word) : (s.setPc a).pc = mask12 a := rfl
@[simp] theorem State.setPc_i (s : State) (a : Word) : (s.setPc a).i = s.i := rfl
@[simp] theorem State.setPc_sp (s : State) (a : Word) : (s.setPc a).sp = s.sp := rfl
@[simp] theorem State.setPc_stack (s : State) (a : Word) : (s.setPc a).stack = s.stack := rfl
@[simp] theorem State.setPc_dt (s : State) (a : Word) : (s.setPc a).dt = s.dt := rfl
@[simp] theorem State.setPc_st (s : State) (a : Word) : (s.setPc a).st = s.st := rfl
@[simp] theorem State.setPc_font (s : State) (a : Word) : (s.setPc a).font = s.font := rfl
@[simp] theorem State.setPc_mem (s : State) (a : Word) : (s.setPc a).mem = s.mem := rfl
@[simp] theorem State.setPc_display (s : State) (a : Word) : (s.setPc a).display = s.display := rfl
@[simp] theorem State.setPc_keyboard (s : State) (a : Word) :
    (s.setPc a).keyboard = s.keyboard := rfl
@[simp] theorem State.setPc_soundRequest (s : State) (a : Word) :
    (s.setPc a).soundRequest = s.soundRequest := rfl
@[simp] theorem State.setPc_report (s : State) (a : Word) : (s.setPc a).report = s.report := rfl
@[simp] theorem State.setPc_reportSeen (s : State) (a : Word) :
    (s.setPc a).reportSeen = s.reportSeen := rfl
@[simp] theorem State.setPc_rndInput (s : State) (a : Word) :
    (s.setPc a).rndInput = s.rndInput := rfl
@[simp] theorem State.setPc_rndIndex (s : State) (a : Word) :
    (s.setPc a).rndIndex = s.rndIndex := rfl

/-! ### `State.setI` -/

@[simp] theorem State.setI_v (s : State) (a : Word) : (s.setI a).v = s.v := rfl
@[simp] theorem State.setI_pc (s : State) (a : Word) : (s.setI a).pc = s.pc := rfl
@[simp] theorem State.setI_i (s : State) (a : Word) : (s.setI a).i = mask12 a := rfl
@[simp] theorem State.setI_sp (s : State) (a : Word) : (s.setI a).sp = s.sp := rfl
@[simp] theorem State.setI_stack (s : State) (a : Word) : (s.setI a).stack = s.stack := rfl
@[simp] theorem State.setI_dt (s : State) (a : Word) : (s.setI a).dt = s.dt := rfl
@[simp] theorem State.setI_st (s : State) (a : Word) : (s.setI a).st = s.st := rfl
@[simp] theorem State.setI_font (s : State) (a : Word) : (s.setI a).font = s.font := rfl
@[simp] theorem State.setI_mem (s : State) (a : Word) : (s.setI a).mem = s.mem := rfl
@[simp] theorem State.setI_display (s : State) (a : Word) : (s.setI a).display = s.display := rfl
@[simp] theorem State.setI_keyboard (s : State) (a : Word) : (s.setI a).keyboard = s.keyboard := rfl
@[simp] theorem State.setI_soundRequest (s : State) (a : Word) :
    (s.setI a).soundRequest = s.soundRequest := rfl
@[simp] theorem State.setI_report (s : State) (a : Word) : (s.setI a).report = s.report := rfl
@[simp] theorem State.setI_reportSeen (s : State) (a : Word) :
    (s.setI a).reportSeen = s.reportSeen := rfl
@[simp] theorem State.setI_rndInput (s : State) (a : Word) : (s.setI a).rndInput = s.rndInput := rfl
@[simp] theorem State.setI_rndIndex (s : State) (a : Word) : (s.setI a).rndIndex = s.rndIndex := rfl

/-! ### `State.setDt` -/

@[simp] theorem State.setDt_v (s : State) (b : Byte) : (s.setDt b).v = s.v := rfl
@[simp] theorem State.setDt_pc (s : State) (b : Byte) : (s.setDt b).pc = s.pc := rfl
@[simp] theorem State.setDt_i (s : State) (b : Byte) : (s.setDt b).i = s.i := rfl
@[simp] theorem State.setDt_sp (s : State) (b : Byte) : (s.setDt b).sp = s.sp := rfl
@[simp] theorem State.setDt_stack (s : State) (b : Byte) : (s.setDt b).stack = s.stack := rfl
@[simp] theorem State.setDt_dt (s : State) (b : Byte) : (s.setDt b).dt = b := rfl
@[simp] theorem State.setDt_st (s : State) (b : Byte) : (s.setDt b).st = s.st := rfl
@[simp] theorem State.setDt_font (s : State) (b : Byte) : (s.setDt b).font = s.font := rfl
@[simp] theorem State.setDt_mem (s : State) (b : Byte) : (s.setDt b).mem = s.mem := rfl
@[simp] theorem State.setDt_display (s : State) (b : Byte) : (s.setDt b).display = s.display := rfl
@[simp] theorem State.setDt_keyboard (s : State) (b : Byte) :
    (s.setDt b).keyboard = s.keyboard := rfl
@[simp] theorem State.setDt_soundRequest (s : State) (b : Byte) :
    (s.setDt b).soundRequest = s.soundRequest := rfl
@[simp] theorem State.setDt_report (s : State) (b : Byte) : (s.setDt b).report = s.report := rfl
@[simp] theorem State.setDt_reportSeen (s : State) (b : Byte) :
    (s.setDt b).reportSeen = s.reportSeen := rfl
@[simp] theorem State.setDt_rndInput (s : State) (b : Byte) :
    (s.setDt b).rndInput = s.rndInput := rfl
@[simp] theorem State.setDt_rndIndex (s : State) (b : Byte) :
    (s.setDt b).rndIndex = s.rndIndex := rfl

/-! ### `State.setSt` -/

@[simp] theorem State.setSt_v (s : State) (b : Byte) : (s.setSt b).v = s.v := rfl
@[simp] theorem State.setSt_pc (s : State) (b : Byte) : (s.setSt b).pc = s.pc := rfl
@[simp] theorem State.setSt_i (s : State) (b : Byte) : (s.setSt b).i = s.i := rfl
@[simp] theorem State.setSt_sp (s : State) (b : Byte) : (s.setSt b).sp = s.sp := rfl
@[simp] theorem State.setSt_stack (s : State) (b : Byte) : (s.setSt b).stack = s.stack := rfl
@[simp] theorem State.setSt_dt (s : State) (b : Byte) : (s.setSt b).dt = s.dt := rfl
@[simp] theorem State.setSt_st (s : State) (b : Byte) : (s.setSt b).st = b := rfl
@[simp] theorem State.setSt_font (s : State) (b : Byte) : (s.setSt b).font = s.font := rfl
@[simp] theorem State.setSt_mem (s : State) (b : Byte) : (s.setSt b).mem = s.mem := rfl
@[simp] theorem State.setSt_display (s : State) (b : Byte) : (s.setSt b).display = s.display := rfl
@[simp] theorem State.setSt_keyboard (s : State) (b : Byte) :
    (s.setSt b).keyboard = s.keyboard := rfl
@[simp] theorem State.setSt_soundRequest (s : State) (b : Byte) :
    (s.setSt b).soundRequest = s.soundRequest := rfl
@[simp] theorem State.setSt_report (s : State) (b : Byte) : (s.setSt b).report = s.report := rfl
@[simp] theorem State.setSt_reportSeen (s : State) (b : Byte) :
    (s.setSt b).reportSeen = s.reportSeen := rfl
@[simp] theorem State.setSt_rndInput (s : State) (b : Byte) :
    (s.setSt b).rndInput = s.rndInput := rfl
@[simp] theorem State.setSt_rndIndex (s : State) (b : Byte) :
    (s.setSt b).rndIndex = s.rndIndex := rfl

/-! ### `State.memWrite` -/

@[simp] theorem State.memWrite_v (s : State) (a : Nat) (b : Byte) : (s.memWrite a b).v = s.v := rfl
@[simp] theorem State.memWrite_pc (s : State) (a : Nat) (b : Byte) :
    (s.memWrite a b).pc = s.pc := rfl
@[simp] theorem State.memWrite_i (s : State) (a : Nat) (b : Byte) : (s.memWrite a b).i = s.i := rfl
@[simp] theorem State.memWrite_sp (s : State) (a : Nat) (b : Byte) :
    (s.memWrite a b).sp = s.sp := rfl
@[simp] theorem State.memWrite_stack (s : State) (a : Nat) (b : Byte) :
    (s.memWrite a b).stack = s.stack := rfl
@[simp] theorem State.memWrite_dt (s : State) (a : Nat) (b : Byte) :
    (s.memWrite a b).dt = s.dt := rfl
@[simp] theorem State.memWrite_st (s : State) (a : Nat) (b : Byte) :
    (s.memWrite a b).st = s.st := rfl
@[simp] theorem State.memWrite_font (s : State) (a : Nat) (b : Byte) :
    (s.memWrite a b).font = s.font := rfl
@[simp] theorem State.memWrite_mem (s : State) (a : Nat) (b : Byte) :
    (s.memWrite a b).mem = s.mem.store (a % Config.memSize) b := rfl
@[simp] theorem State.memWrite_display (s : State) (a : Nat) (b : Byte) :
    (s.memWrite a b).display = s.display := rfl
@[simp] theorem State.memWrite_keyboard (s : State) (a : Nat) (b : Byte) :
    (s.memWrite a b).keyboard = s.keyboard := rfl
@[simp] theorem State.memWrite_soundRequest (s : State) (a : Nat) (b : Byte) :
    (s.memWrite a b).soundRequest = s.soundRequest := rfl
@[simp] theorem State.memWrite_report (s : State) (a : Nat) (b : Byte) :
    (s.memWrite a b).report = s.report := rfl
@[simp] theorem State.memWrite_reportSeen (s : State) (a : Nat) (b : Byte) :
    (s.memWrite a b).reportSeen = s.reportSeen := rfl
@[simp] theorem State.memWrite_rndInput (s : State) (a : Nat) (b : Byte) :
    (s.memWrite a b).rndInput = s.rndInput := rfl
@[simp] theorem State.memWrite_rndIndex (s : State) (a : Nat) (b : Byte) :
    (s.memWrite a b).rndIndex = s.rndIndex := rfl

/-! ### `State.setDisplay` -/

@[simp] theorem State.setDisplay_v (s : State) (d : Display) : (s.setDisplay d).v = s.v := rfl
@[simp] theorem State.setDisplay_pc (s : State) (d : Display) : (s.setDisplay d).pc = s.pc := rfl
@[simp] theorem State.setDisplay_i (s : State) (d : Display) : (s.setDisplay d).i = s.i := rfl
@[simp] theorem State.setDisplay_sp (s : State) (d : Display) : (s.setDisplay d).sp = s.sp := rfl
@[simp] theorem State.setDisplay_stack (s : State) (d : Display) :
    (s.setDisplay d).stack = s.stack := rfl
@[simp] theorem State.setDisplay_dt (s : State) (d : Display) : (s.setDisplay d).dt = s.dt := rfl
@[simp] theorem State.setDisplay_st (s : State) (d : Display) : (s.setDisplay d).st = s.st := rfl
@[simp] theorem State.setDisplay_font (s : State) (d : Display) :
    (s.setDisplay d).font = s.font := rfl
@[simp] theorem State.setDisplay_mem (s : State) (d : Display) : (s.setDisplay d).mem = s.mem := rfl
@[simp] theorem State.setDisplay_display (s : State) (d : Display) :
    (s.setDisplay d).display = d := rfl
@[simp] theorem State.setDisplay_keyboard (s : State) (d : Display) :
    (s.setDisplay d).keyboard = s.keyboard := rfl
@[simp] theorem State.setDisplay_soundRequest (s : State) (d : Display) :
    (s.setDisplay d).soundRequest = s.soundRequest := rfl
@[simp] theorem State.setDisplay_report (s : State) (d : Display) :
    (s.setDisplay d).report = s.report := rfl
@[simp] theorem State.setDisplay_reportSeen (s : State) (d : Display) :
    (s.setDisplay d).reportSeen = s.reportSeen := rfl
@[simp] theorem State.setDisplay_rndInput (s : State) (d : Display) :
    (s.setDisplay d).rndInput = s.rndInput := rfl
@[simp] theorem State.setDisplay_rndIndex (s : State) (d : Display) :
    (s.setDisplay d).rndIndex = s.rndIndex := rfl

/-! ### `State.raise` -/

@[simp] theorem State.raise_v (s : State) (r : Report) : (s.raise r).v = s.v := rfl
@[simp] theorem State.raise_pc (s : State) (r : Report) : (s.raise r).pc = s.pc := rfl
@[simp] theorem State.raise_i (s : State) (r : Report) : (s.raise r).i = s.i := rfl
@[simp] theorem State.raise_sp (s : State) (r : Report) : (s.raise r).sp = s.sp := rfl
@[simp] theorem State.raise_stack (s : State) (r : Report) : (s.raise r).stack = s.stack := rfl
@[simp] theorem State.raise_dt (s : State) (r : Report) : (s.raise r).dt = s.dt := rfl
@[simp] theorem State.raise_st (s : State) (r : Report) : (s.raise r).st = s.st := rfl
@[simp] theorem State.raise_font (s : State) (r : Report) : (s.raise r).font = s.font := rfl
@[simp] theorem State.raise_mem (s : State) (r : Report) : (s.raise r).mem = s.mem := rfl
@[simp] theorem State.raise_display (s : State) (r : Report) :
    (s.raise r).display = s.display := rfl
@[simp] theorem State.raise_keyboard (s : State) (r : Report) :
    (s.raise r).keyboard = s.keyboard := rfl
@[simp] theorem State.raise_soundRequest (s : State) (r : Report) :
    (s.raise r).soundRequest = s.soundRequest := rfl
@[simp] theorem State.raise_report (s : State) (r : Report) : (s.raise r).report = r := rfl
@[simp] theorem State.raise_reportSeen (s : State) (r : Report) :
    (s.raise r).reportSeen = s.reportSeen.mark r := rfl
@[simp] theorem State.raise_rndInput (s : State) (r : Report) :
    (s.raise r).rndInput = s.rndInput := rfl
@[simp] theorem State.raise_rndIndex (s : State) (r : Report) :
    (s.raise r).rndIndex = s.rndIndex := rfl

/-! ### `State.clearReport` -/

@[simp] theorem State.clearReport_v (s : State) : (s.clearReport).v = s.v := rfl
@[simp] theorem State.clearReport_pc (s : State) : (s.clearReport).pc = s.pc := rfl
@[simp] theorem State.clearReport_i (s : State) : (s.clearReport).i = s.i := rfl
@[simp] theorem State.clearReport_sp (s : State) : (s.clearReport).sp = s.sp := rfl
@[simp] theorem State.clearReport_stack (s : State) : (s.clearReport).stack = s.stack := rfl
@[simp] theorem State.clearReport_dt (s : State) : (s.clearReport).dt = s.dt := rfl
@[simp] theorem State.clearReport_st (s : State) : (s.clearReport).st = s.st := rfl
@[simp] theorem State.clearReport_font (s : State) : (s.clearReport).font = s.font := rfl
@[simp] theorem State.clearReport_mem (s : State) : (s.clearReport).mem = s.mem := rfl
@[simp] theorem State.clearReport_display (s : State) : (s.clearReport).display = s.display := rfl
@[simp] theorem State.clearReport_keyboard (s : State) :
    (s.clearReport).keyboard = s.keyboard := rfl
@[simp] theorem State.clearReport_soundRequest (s : State) :
    (s.clearReport).soundRequest = s.soundRequest := rfl
@[simp] theorem State.clearReport_report (s : State) : (s.clearReport).report = .none := rfl
@[simp] theorem State.clearReport_reportSeen (s : State) :
    (s.clearReport).reportSeen = s.reportSeen := rfl
@[simp] theorem State.clearReport_rndInput (s : State) :
    (s.clearReport).rndInput = s.rndInput := rfl
@[simp] theorem State.clearReport_rndIndex (s : State) :
    (s.clearReport).rndIndex = s.rndIndex := rfl

/-! ### `State.presentRnd` -/

@[simp] theorem State.presentRnd_v (s : State) (b : Byte) : (s.presentRnd b).v = s.v := rfl
@[simp] theorem State.presentRnd_pc (s : State) (b : Byte) : (s.presentRnd b).pc = s.pc := rfl
@[simp] theorem State.presentRnd_i (s : State) (b : Byte) : (s.presentRnd b).i = s.i := rfl
@[simp] theorem State.presentRnd_sp (s : State) (b : Byte) : (s.presentRnd b).sp = s.sp := rfl
@[simp] theorem State.presentRnd_stack (s : State) (b : Byte) :
    (s.presentRnd b).stack = s.stack := rfl
@[simp] theorem State.presentRnd_dt (s : State) (b : Byte) : (s.presentRnd b).dt = s.dt := rfl
@[simp] theorem State.presentRnd_st (s : State) (b : Byte) : (s.presentRnd b).st = s.st := rfl
@[simp] theorem State.presentRnd_font (s : State) (b : Byte) : (s.presentRnd b).font = s.font := rfl
@[simp] theorem State.presentRnd_mem (s : State) (b : Byte) : (s.presentRnd b).mem = s.mem := rfl
@[simp] theorem State.presentRnd_display (s : State) (b : Byte) :
    (s.presentRnd b).display = s.display := rfl
@[simp] theorem State.presentRnd_keyboard (s : State) (b : Byte) :
    (s.presentRnd b).keyboard = s.keyboard := rfl
@[simp] theorem State.presentRnd_soundRequest (s : State) (b : Byte) :
    (s.presentRnd b).soundRequest = s.soundRequest := rfl
@[simp] theorem State.presentRnd_report (s : State) (b : Byte) :
    (s.presentRnd b).report = s.report := rfl
@[simp] theorem State.presentRnd_reportSeen (s : State) (b : Byte) :
    (s.presentRnd b).reportSeen = s.reportSeen := rfl
@[simp] theorem State.presentRnd_rndInput (s : State) (b : Byte) :
    (s.presentRnd b).rndInput = some b := rfl
@[simp] theorem State.presentRnd_rndIndex (s : State) (b : Byte) :
    (s.presentRnd b).rndIndex = s.rndIndex := rfl

/-! ### `State.dropRnd` -/

@[simp] theorem State.dropRnd_v (s : State) : (s.dropRnd).v = s.v := rfl
@[simp] theorem State.dropRnd_pc (s : State) : (s.dropRnd).pc = s.pc := rfl
@[simp] theorem State.dropRnd_i (s : State) : (s.dropRnd).i = s.i := rfl
@[simp] theorem State.dropRnd_sp (s : State) : (s.dropRnd).sp = s.sp := rfl
@[simp] theorem State.dropRnd_stack (s : State) : (s.dropRnd).stack = s.stack := rfl
@[simp] theorem State.dropRnd_dt (s : State) : (s.dropRnd).dt = s.dt := rfl
@[simp] theorem State.dropRnd_st (s : State) : (s.dropRnd).st = s.st := rfl
@[simp] theorem State.dropRnd_font (s : State) : (s.dropRnd).font = s.font := rfl
@[simp] theorem State.dropRnd_mem (s : State) : (s.dropRnd).mem = s.mem := rfl
@[simp] theorem State.dropRnd_display (s : State) : (s.dropRnd).display = s.display := rfl
@[simp] theorem State.dropRnd_keyboard (s : State) : (s.dropRnd).keyboard = s.keyboard := rfl
@[simp] theorem State.dropRnd_soundRequest (s : State) :
    (s.dropRnd).soundRequest = s.soundRequest := rfl
@[simp] theorem State.dropRnd_report (s : State) : (s.dropRnd).report = s.report := rfl
@[simp] theorem State.dropRnd_reportSeen (s : State) : (s.dropRnd).reportSeen = s.reportSeen := rfl
@[simp] theorem State.dropRnd_rndInput (s : State) : (s.dropRnd).rndInput = none := rfl
@[simp] theorem State.dropRnd_rndIndex (s : State) : (s.dropRnd).rndIndex = s.rndIndex + 1 := rfl

/-! ### `State.tick` -/

@[simp] theorem State.tick_v (s : State) : (s.tick).v = s.v := rfl
@[simp] theorem State.tick_pc (s : State) : (s.tick).pc = s.pc := rfl
@[simp] theorem State.tick_i (s : State) : (s.tick).i = s.i := rfl
@[simp] theorem State.tick_sp (s : State) : (s.tick).sp = s.sp := rfl
@[simp] theorem State.tick_stack (s : State) : (s.tick).stack = s.stack := rfl
@[simp] theorem State.tick_dt (s : State) : (s.tick).dt = countDown s.dt := rfl
@[simp] theorem State.tick_st (s : State) : (s.tick).st = countDown s.st := rfl
@[simp] theorem State.tick_font (s : State) : (s.tick).font = s.font := rfl
@[simp] theorem State.tick_mem (s : State) : (s.tick).mem = s.mem := rfl
@[simp] theorem State.tick_display (s : State) : (s.tick).display = s.display := rfl
@[simp] theorem State.tick_keyboard (s : State) : (s.tick).keyboard = s.keyboard := rfl
@[simp] theorem State.tick_soundRequest (s : State) :
    (s.tick).soundRequest = (s.soundRequest || s.st == 1) := rfl
@[simp] theorem State.tick_report (s : State) : (s.tick).report = s.report := rfl
@[simp] theorem State.tick_reportSeen (s : State) : (s.tick).reportSeen = s.reportSeen := rfl
@[simp] theorem State.tick_rndInput (s : State) : (s.tick).rndInput = s.rndInput := rfl
@[simp] theorem State.tick_rndIndex (s : State) : (s.tick).rndIndex = s.rndIndex := rfl

/-! ### Accessors under the updates that do not touch what they read -/

@[simp] theorem State.reg_setPc (s : State) (a : Word) (y : Nibble) :
    (s.setPc a).reg y = s.reg y := rfl
@[simp] theorem State.reg_setI (s : State) (a : Word) (y : Nibble) :
    (s.setI a).reg y = s.reg y := rfl
@[simp] theorem State.reg_setDt (s : State) (b : Byte) (y : Nibble) :
    (s.setDt b).reg y = s.reg y := rfl
@[simp] theorem State.reg_setSt (s : State) (b : Byte) (y : Nibble) :
    (s.setSt b).reg y = s.reg y := rfl
@[simp] theorem State.reg_memWrite (s : State) (a : Nat) (b : Byte) (y : Nibble) :
    (s.memWrite a b).reg y = s.reg y := rfl
@[simp] theorem State.reg_setDisplay (s : State) (d : Display) (y : Nibble) :
    (s.setDisplay d).reg y = s.reg y := rfl
@[simp] theorem State.reg_raise (s : State) (r : Report) (y : Nibble) :
    (s.raise r).reg y = s.reg y := rfl
@[simp] theorem State.reg_clearReport (s : State) (y : Nibble) :
    (s.clearReport).reg y = s.reg y := rfl
@[simp] theorem State.reg_presentRnd (s : State) (b : Byte) (y : Nibble) :
    (s.presentRnd b).reg y = s.reg y := rfl
@[simp] theorem State.reg_dropRnd (s : State) (y : Nibble) :
    (s.dropRnd).reg y = s.reg y := rfl
@[simp] theorem State.reg_tick (s : State) (y : Nibble) :
    (s.tick).reg y = s.reg y := rfl
@[simp] theorem State.memRead_setReg (s : State) (x : Nibble) (b : Byte) (m : Nat) :
    (s.setReg x b).memRead m = s.memRead m := rfl
@[simp] theorem State.memRead_setPc (s : State) (a : Word) (m : Nat) :
    (s.setPc a).memRead m = s.memRead m := rfl
@[simp] theorem State.memRead_setI (s : State) (a : Word) (m : Nat) :
    (s.setI a).memRead m = s.memRead m := rfl
@[simp] theorem State.memRead_setDt (s : State) (b : Byte) (m : Nat) :
    (s.setDt b).memRead m = s.memRead m := rfl
@[simp] theorem State.memRead_setSt (s : State) (b : Byte) (m : Nat) :
    (s.setSt b).memRead m = s.memRead m := rfl
@[simp] theorem State.memRead_setDisplay (s : State) (d : Display) (m : Nat) :
    (s.setDisplay d).memRead m = s.memRead m := rfl
@[simp] theorem State.memRead_raise (s : State) (r : Report) (m : Nat) :
    (s.raise r).memRead m = s.memRead m := rfl
@[simp] theorem State.memRead_clearReport (s : State) (m : Nat) :
    (s.clearReport).memRead m = s.memRead m := rfl
@[simp] theorem State.memRead_presentRnd (s : State) (b : Byte) (m : Nat) :
    (s.presentRnd b).memRead m = s.memRead m := rfl
@[simp] theorem State.memRead_dropRnd (s : State) (m : Nat) :
    (s.dropRnd).memRead m = s.memRead m := rfl
@[simp] theorem State.memRead_tick (s : State) (m : Nat) :
    (s.tick).memRead m = s.memRead m := rfl
@[simp] theorem State.keyDown_setReg (s : State) (x : Nibble) (b : Byte) (k : Nibble) :
    (s.setReg x b).keyDown k = s.keyDown k := rfl
@[simp] theorem State.keyDown_setPc (s : State) (a : Word) (k : Nibble) :
    (s.setPc a).keyDown k = s.keyDown k := rfl
@[simp] theorem State.keyDown_setI (s : State) (a : Word) (k : Nibble) :
    (s.setI a).keyDown k = s.keyDown k := rfl
@[simp] theorem State.keyDown_setDt (s : State) (b : Byte) (k : Nibble) :
    (s.setDt b).keyDown k = s.keyDown k := rfl
@[simp] theorem State.keyDown_setSt (s : State) (b : Byte) (k : Nibble) :
    (s.setSt b).keyDown k = s.keyDown k := rfl
@[simp] theorem State.keyDown_memWrite (s : State) (a : Nat) (b : Byte) (k : Nibble) :
    (s.memWrite a b).keyDown k = s.keyDown k := rfl
@[simp] theorem State.keyDown_setDisplay (s : State) (d : Display) (k : Nibble) :
    (s.setDisplay d).keyDown k = s.keyDown k := rfl
@[simp] theorem State.keyDown_raise (s : State) (r : Report) (k : Nibble) :
    (s.raise r).keyDown k = s.keyDown k := rfl
@[simp] theorem State.keyDown_clearReport (s : State) (k : Nibble) :
    (s.clearReport).keyDown k = s.keyDown k := rfl
@[simp] theorem State.keyDown_presentRnd (s : State) (b : Byte) (k : Nibble) :
    (s.presentRnd b).keyDown k = s.keyDown k := rfl
@[simp] theorem State.keyDown_dropRnd (s : State) (k : Nibble) :
    (s.dropRnd).keyDown k = s.keyDown k := rfl
@[simp] theorem State.keyDown_tick (s : State) (k : Nibble) :
    (s.tick).keyDown k = s.keyDown k := rfl
@[simp] theorem State.lowestKey_setReg (s : State) (x : Nibble) (b : Byte) :
    (s.setReg x b).lowestKey = s.lowestKey := rfl
@[simp] theorem State.lowestKey_setPc (s : State) (a : Word) :
    (s.setPc a).lowestKey = s.lowestKey := rfl
@[simp] theorem State.lowestKey_setI (s : State) (a : Word) :
    (s.setI a).lowestKey = s.lowestKey := rfl
@[simp] theorem State.lowestKey_setDt (s : State) (b : Byte) :
    (s.setDt b).lowestKey = s.lowestKey := rfl
@[simp] theorem State.lowestKey_setSt (s : State) (b : Byte) :
    (s.setSt b).lowestKey = s.lowestKey := rfl
@[simp] theorem State.lowestKey_memWrite (s : State) (a : Nat) (b : Byte) :
    (s.memWrite a b).lowestKey = s.lowestKey := rfl
@[simp] theorem State.lowestKey_setDisplay (s : State) (d : Display) :
    (s.setDisplay d).lowestKey = s.lowestKey := rfl
@[simp] theorem State.lowestKey_raise (s : State) (r : Report) :
    (s.raise r).lowestKey = s.lowestKey := rfl
@[simp] theorem State.lowestKey_clearReport (s : State) :
    (s.clearReport).lowestKey = s.lowestKey := rfl
@[simp] theorem State.lowestKey_presentRnd (s : State) (b : Byte) :
    (s.presentRnd b).lowestKey = s.lowestKey := rfl
@[simp] theorem State.lowestKey_dropRnd (s : State) :
    (s.dropRnd).lowestKey = s.lowestKey := rfl
@[simp] theorem State.lowestKey_tick (s : State) :
    (s.tick).lowestKey = s.lowestKey := rfl
@[simp] theorem State.instrAddr_setReg (s : State) (x : Nibble) (b : Byte) :
    (s.setReg x b).instrAddr = s.instrAddr := rfl
@[simp] theorem State.instrAddr_setI (s : State) (a : Word) :
    (s.setI a).instrAddr = s.instrAddr := rfl
@[simp] theorem State.instrAddr_setDt (s : State) (b : Byte) :
    (s.setDt b).instrAddr = s.instrAddr := rfl
@[simp] theorem State.instrAddr_setSt (s : State) (b : Byte) :
    (s.setSt b).instrAddr = s.instrAddr := rfl
@[simp] theorem State.instrAddr_memWrite (s : State) (a : Nat) (b : Byte) :
    (s.memWrite a b).instrAddr = s.instrAddr := rfl
@[simp] theorem State.instrAddr_setDisplay (s : State) (d : Display) :
    (s.setDisplay d).instrAddr = s.instrAddr := rfl
@[simp] theorem State.instrAddr_raise (s : State) (r : Report) :
    (s.raise r).instrAddr = s.instrAddr := rfl
@[simp] theorem State.instrAddr_clearReport (s : State) :
    (s.clearReport).instrAddr = s.instrAddr := rfl
@[simp] theorem State.instrAddr_presentRnd (s : State) (b : Byte) :
    (s.presentRnd b).instrAddr = s.instrAddr := rfl
@[simp] theorem State.instrAddr_dropRnd (s : State) :
    (s.dropRnd).instrAddr = s.instrAddr := rfl
@[simp] theorem State.instrAddr_tick (s : State) :
    (s.tick).instrAddr = s.instrAddr := rfl

end Sys2Proof.Machine
end

