-- ==== Sys2Proof/Laws/Ops.lean ====
section
/-!
SUPPORT. One lemma per shared operation that says all it does: register writes, masked writes,
loads and stores over a block of addresses, the stack, the random input.
-/

namespace Sys2Proof.Machine

/-! ### Words -/

@[simp] theorem mask12_toNat (a : Word) : (mask12 a).toNat = a.toNat % 4096 := by
  have h : (0x0FFF#16).toNat = 2 ^ 12 - 1 := by decide
  simp only [mask12, BitVec.toNat_and]
  exact (congrArg (a.toNat &&& ·) h).trans (Nat.and_two_pow_sub_one_eq_mod _ 12)

@[simp] theorem addrWord_toNat (nnn : Addr) : (addrWord nnn).toNat = nnn.toNat := by
  simp only [addrWord, BitVec.toNat_setWidth]
  have := nnn.isLt
  omega

@[simp] theorem byteWord_toNat (b : Byte) : (byteWord b).toNat = b.toNat := by
  simp only [byteWord, BitVec.toNat_setWidth]
  have := b.isLt
  omega

theorem mask12_of_lt {a : Word} (h : a.toNat < 4096) : mask12 a = a :=
  BitVec.eq_of_toNat_eq (by rw [mask12_toNat]; omega)

@[simp] theorem mask12_addrWord (nnn : Addr) : mask12 (addrWord nnn) = addrWord nnn :=
  mask12_of_lt (by rw [addrWord_toNat]; exact nnn.isLt)

theorem glyphAddr_toNat (b : Byte) : (glyphAddr b).toNat = b.toNat % 16 * 5 := by
  simp only [glyphAddr, BitVec.toNat_ofNat]
  omega

@[simp] theorem mask12_glyphAddr (b : Byte) : mask12 (glyphAddr b) = glyphAddr b :=
  mask12_of_lt (by rw [glyphAddr_toNat]; omega)

theorem countDown_toNat (t : Byte) : (countDown t).toNat = t.toNat - 1 := by
  unfold countDown
  split
  · next h => simp [h]
  · next h =>
    have h0 : t.toNat ≠ 0 := fun e => h (BitVec.eq_of_toNat_eq (by simpa using e))
    have := t.isLt
    rw [BitVec.toNat_sub]
    simp
    omega

theorem effAddr_lt (base : Word) (k : Nat) : effAddr base k < Config.memSize :=
  Nat.mod_lt _ (by decide)

/-- Two different displacements below 4096 reach two different addresses. -/
theorem effAddr_inj {base : Word} {j k : Nat} (hj : j < 4096) (hk : k < 4096)
    (h : effAddr base j = effAddr base k) : j = k := by
  simp only [effAddr, Config.memSize] at h
  omega

/-! ### Registers -/

theorem State.reg_setReg (s : State) (x y : Nibble) (b : Byte) :
    (s.setReg x b).reg y = if y = x then b else s.reg y := by
  simp only [State.reg, State.setReg_v, Vector.getElem_set, ← BitVec.toNat_inj, eq_comm]

@[simp] theorem State.reg_setReg_same (s : State) (x : Nibble) (b : Byte) :
    (s.setReg x b).reg x = b := by
  simp [State.reg_setReg]

theorem State.reg_setReg_other (s : State) {x y : Nibble} (b : Byte) (h : y ≠ x) :
    (s.setReg x b).reg y = s.reg y := by
  simp [State.reg_setReg, h]

/-- The flag-writing ALU instructions: the result wins in `V[x]`, the flag stands in `VF` otherwise. -/
theorem State.reg_setFlagged (s : State) (x y : Nibble) (flag result : Byte) :
    (s.setFlagged x flag result).reg y =
      if y = x then result else if y = regF then flag else s.reg y := by
  simp only [State.setFlagged, State.reg_setReg]

/-- Two states whose registers read alike have the same register file. -/
theorem State.v_ext {s t : State} (h : ∀ y, s.reg y = t.reg y) : s.v = t.v := by
  apply Vector.ext
  intro k hk
  have := h (BitVec.ofNat 4 k)
  have e : (BitVec.ofNat 4 k).toNat = k := by
    rw [BitVec.toNat_ofNat]; omega
  simpa only [State.reg, e] using this

theorem State.skipIf_eq (s : State) (c : Bool) :
    s.skipIf c = { s with pc := if c then mask12 (s.pc + 2) else s.pc } := by
  cases c <;> rfl

/-! ### Blocks of registers -/

theorem State.setRegs_eq (s : State) (k : Nat) (bytes : List Byte) :
    s.setRegs k bytes = { s with v := (s.setRegs k bytes).v } := by
  induction bytes generalizing s k with
  | nil => rfl
  | cons b rest ih =>
    simp only [State.setRegs]
    rw [ih]
    rfl

theorem State.reg_setRegs (s : State) (k : Nat) (bytes : List Byte) (y : Nibble)
    (h : k + bytes.length ≤ 16) :
    (s.setRegs k bytes).reg y =
      if k ≤ y.toNat ∧ y.toNat < k + bytes.length then bytes.getD (y.toNat - k) 0 else s.reg y := by
  induction bytes generalizing s k with
  | nil =>
    have h' : ¬ (k ≤ y.toNat ∧ y.toNat < k + 0) := by omega
    simp only [State.setRegs, List.length_nil, h', if_false]
  | cons b rest ih =>
    simp only [List.length_cons] at h ⊢
    simp only [State.setRegs]
    rw [ih _ _ (by omega), State.reg_setReg]
    have hk : (BitVec.ofNat 4 k).toNat = k := by rw [BitVec.toNat_ofNat]; omega
    by_cases hy : y.toNat = k
    · have e : y = BitVec.ofNat 4 k := BitVec.eq_of_toNat_eq (by rw [hk, hy])
      simp [e, hk]
    · have e : y ≠ BitVec.ofNat 4 k := fun e => hy (by rw [e, hk])
      simp only [e, if_false]
      by_cases hgt : k < y.toNat
      · have e2 : y.toNat - k = y.toNat - (k + 1) + 1 := by omega
        simp only [e2, List.getD_cons_succ]
        congr 1
        simp only [eq_iff_iff]; omega
      · have h1 : ¬ (k + 1 ≤ y.toNat ∧ y.toNat < k + 1 + rest.length) := by omega
        have h2 : ¬ (k ≤ y.toNat ∧ y.toNat < k + (rest.length + 1)) := by omega
        simp only [h1, h2, if_false]

@[simp] theorem State.loadBytes_length (s : State) (n : Nat) : (s.loadBytes n).length = n := by
  simp [State.loadBytes]

theorem State.loadBytes_getD (s : State) {n k : Nat} (h : k < n) :
    (s.loadBytes n).getD k 0 = s.memRead (effAddr s.i k) := by
  simp [State.loadBytes, List.getD, List.getElem?_map, List.getElem?_range h]

@[simp] theorem State.regList_length (s : State) (n : Nat) : (s.regList n).length = n := by
  simp [State.regList]

theorem State.regList_getD (s : State) {n k : Nat} (h : k < n) :
    (s.regList n).getD k 0 = s.reg (BitVec.ofNat 4 k) := by
  simp [State.regList, List.getD, List.getElem?_map, List.getElem?_range h]

/-! ### Memory -/

/-- The font region reads as the table. -/
theorem State.memRead_font (s : State) {a : Nat} (h : a % 4096 < Config.fontSize) :
    s.memRead a = s.font[a % 4096] := dif_pos h

/-- Everything above it reads as `mem`. -/
theorem State.memRead_mem (s : State) {a : Nat} (h : Config.fontSize ≤ a % 4096) :
    s.memRead a = s.mem.read (a % 4096) := dif_neg (Nat.not_lt.2 h)

/-- Reading depends on the font region and `mem` alone. -/
theorem State.memRead_congr {s t : State} (hf : t.font = s.font) (hm : t.mem = s.mem) (a : Nat) :
    t.memRead a = s.memRead a := by
  simp only [State.memRead, hf, hm]

theorem State.memRead_memWrite (s : State) (a b : Nat) (w : Byte) (h : s.mem.wf = true) :
    (s.memWrite a w).memRead b =
      if b % 4096 = a % 4096 ∧ Config.fontSize ≤ a % 4096 then w else s.memRead b := by
  by_cases hb : b % 4096 < Config.fontSize
  · rw [State.memRead_font _ hb, State.memRead_font _ hb, if_neg (by omega)]
    rfl
  · rw [State.memRead_mem _ (by omega), State.memRead_mem _ (by omega), State.memWrite_mem]
    exact Memory.read_store _ _ w h

theorem State.memRead_memWrite_other (s : State) {a b : Nat} (w : Byte)
    (h : b % 4096 ≠ a % 4096) : (s.memWrite a w).memRead b = s.memRead b := by
  by_cases hb : b % 4096 < Config.fontSize
  · rw [State.memRead_font _ hb, State.memRead_font _ hb]
    rfl
  · rw [State.memRead_mem _ (by omega), State.memRead_mem _ (by omega), State.memWrite_mem]
    exact Memory.read_store_other w h

theorem State.wf_memWrite {s : State} (a : Nat) (w : Byte) (h : s.mem.wf = true) :
    (s.memWrite a w).mem.wf = true :=
  Memory.wf_store w (Nat.mod_lt _ (by decide)) h

/-- A block store changes `mem` alone. -/
theorem State.storeFrom_eq (s : State) (k : Nat) (bytes : List Byte) :
    s.storeFrom k bytes = { s with mem := (s.storeFrom k bytes).mem } := by
  induction bytes generalizing s k with
  | nil => rfl
  | cons b rest ih =>
    simp only [State.storeFrom]
    rw [ih]
    rfl

theorem State.wf_storeFrom {s : State} (k : Nat) (bytes : List Byte) (h : s.mem.wf = true) :
    (s.storeFrom k bytes).mem.wf = true := by
  induction bytes generalizing s k with
  | nil => exact h
  | cons b rest ih => exact ih (k + 1) (State.wf_memWrite _ b h)

/-- A block store never changes the font region. -/
@[simp] theorem State.font_storeFrom (s : State) (k : Nat) (bytes : List Byte) :
    (s.storeFrom k bytes).font = s.font := by
  rw [State.storeFrom_eq]

/-- A block store leaves every byte outside the block alone. -/
theorem State.memRead_storeFrom_other (s : State) (k : Nat) (bytes : List Byte) {a : Nat}
    (h : ∀ j < bytes.length, a % 4096 ≠ effAddr s.i (k + j)) :
    (s.storeFrom k bytes).memRead a = s.memRead a := by
  induction bytes generalizing s k with
  | nil => rfl
  | cons b rest ih =>
    simp only [State.storeFrom]
    rw [ih]
    · refine State.memRead_memWrite_other s b ?_
      have := h 0 (by simp)
      simpa [effAddr] using this
    · intro j hj
      have := h (j + 1) (by simpa using hj)
      simpa [Nat.add_assoc, Nat.add_comm 1 j] using this

/-- A block store puts byte `j` at `I + k + j`, outside the font region. -/
theorem State.memRead_storeFrom (s : State) (k : Nat) (bytes : List Byte) {j : Nat}
    (hwf : s.mem.wf = true) (hlen : k + bytes.length ≤ 4096) (hj : j < bytes.length)
    (hfont : Config.fontSize ≤ effAddr s.i (k + j)) :
    (s.storeFrom k bytes).memRead (effAddr s.i (k + j)) = bytes.getD j 0 := by
  induction bytes generalizing s k j with
  | nil => simp at hj
  | cons b rest ih =>
    simp only [List.length_cons] at hlen hj
    simp only [State.storeFrom]
    cases j with
    | zero =>
      have hlt := effAddr_lt s.i k
      rw [State.memRead_storeFrom_other]
      · rw [State.memRead_memWrite _ _ _ _ hwf]
        simp only [Nat.add_zero] at hfont ⊢
        have e : effAddr s.i k % 4096 = effAddr s.i k := Nat.mod_eq_of_lt hlt
        simp [e, hfont]
      · intro j hj' e
        simp only [State.memWrite_i, Nat.add_zero, Nat.mod_eq_of_lt hlt] at e
        have := effAddr_inj (by omega) (by omega) e
        omega
    | succ j =>
      have e : k + (j + 1) = k + 1 + j := by omega
      rw [e] at hfont ⊢
      have := ih (s.memWrite (effAddr s.i k) b) (k + 1) (State.wf_memWrite _ b hwf)
        (by omega) (by omega) (j := j) hfont
      simpa only [State.memWrite_i, List.getD_cons_succ] using this

/-! ### Stack -/

theorem State.push_of_lt {s : State} (a : Word) (h : s.sp.toNat < 16) :
    s.push a = some { s with stack := s.stack.set s.sp.toNat a h, sp := s.sp + 1 } := by
  simp [State.push, h]

theorem State.pop_of_pos {s : State} (h0 : 0 < s.sp.toNat) (h16 : s.sp.toNat ≤ 16) :
    s.pop = some (s.stack[s.sp.toNat - 1]'(by omega), { s with sp := s.sp - 1 }) := by
  have e : (s.sp - 1).toNat = s.sp.toNat - 1 := by
    rw [BitVec.toNat_sub]; simp; omega
  simp only [State.pop, e]
  rw [dif_pos (by omega)]

/-! ### Keyboard and random input -/

theorem State.lowestKey_none {s : State} (h : ∀ k, s.keyDown k = false) : s.lowestKey = none := by
  simp [State.lowestKey, List.find?_eq_none, h]

theorem State.lowestKey_some {s : State} {k : Nibble} (hk : s.keyDown k = true)
    (hmin : ∀ j, j.toNat < k.toNat → s.keyDown j = false) : s.lowestKey = some k := by
  unfold State.lowestKey
  rw [List.find?_eq_some_iff_getElem]
  refine ⟨hk, k.toNat, by simpa using k.isLt, by simp, ?_⟩
  intro j hj
  have hj' : j < 16 := by have := k.isLt; omega
  simp only [List.getElem_map, List.getElem_range]
  rw [hmin]
  · rfl
  · rw [BitVec.toNat_ofNat]; omega

theorem State.lowestKey_inv {s : State} {k : Nibble} (h : s.lowestKey = some k) :
    s.keyDown k = true := by
  simpa using List.find?_some h

/-- With a byte presented, that byte is the step's. -/
@[simp] theorem State.rnd_presentRnd (s : State) (b : Byte) : (s.presentRnd b).rnd = b := rfl

/-- A step goes on exactly where its execute phase does, without the `RND` byte. -/
theorem endStep_next {r : Result} {t : State} :
    endStep r = .next t ↔ ∃ u, r = .next u ∧ t = u.dropRnd := by
  cases r <;> simp [endStep, eq_comm]

end Sys2Proof.Machine
end

