-- ==== Sys2Proof/Laws/PerInstr.lean ====
section
/-!
SUPPORT. Statements made once per instruction, as syntax. `FamilyNibble`: the encoded word of an
instruction carries the family nibble of its row in Table R97.
-/

namespace Sys2Proof.Laws.FamilyNibble

/-- The first digit of each instruction's pattern (`30_encoding.md` R95). -/
def family (i : Instr) : Nibble :=
  match i with
  | .cls | .ret | .sys _ => 0x0
  | .jp _ => 0x1
  | .call _ => 0x2
  | .seImm _ _ => 0x3
  | .sneImm _ _ => 0x4
  | .seReg _ _ => 0x5
  | .ldImm _ _ => 0x6
  | .addImm _ _ => 0x7
  | .ldReg _ _ | .orReg _ _ | .andReg _ _ | .xorReg _ _ | .addReg _ _ | .sub _ _ | .shr _ _
  | .subn _ _ | .shl _ _ => 0x8
  | .sneReg _ _ => 0x9
  | .ldI _ => 0xA
  | .jpV0 _ => 0xB
  | .rnd _ _ => 0xC
  | .drw _ _ _ => 0xD
  | .skp _ | .sknp _ => 0xE
  | .ldVxDt _ | .ldDtVx _ | .ldStVx _ | .ldVxK _ | .addI _ | .ldF _ | .ldB _ | .ldMemVx _
  | .ldVxMem _ => 0xF

/-- The encoded word's family nibble is the row's. -/
def Statement (i : Instr) : Prop := fieldC (encode i) = family i

theorem cls : Statement .cls := by unfold Statement; decide
theorem ret : Statement .ret := by unfold Statement; decide
theorem sys (nnn : Addr) : Statement (.sys nnn) := fieldC_packNNN _ _
theorem jp (nnn : Addr) : Statement (.jp nnn) := fieldC_packNNN _ _
theorem call (nnn : Addr) : Statement (.call nnn) := fieldC_packNNN _ _
theorem seImm (x : Nibble) (kk : Byte) : Statement (.seImm x kk) := fieldC_packXKK _ _ _
theorem sneImm (x : Nibble) (kk : Byte) : Statement (.sneImm x kk) := fieldC_packXKK _ _ _
theorem seReg (x : Nibble) (y : Nibble) : Statement (.seReg x y) := fieldC_packXYN _ _ _ _
theorem sneReg (x : Nibble) (y : Nibble) : Statement (.sneReg x y) := fieldC_packXYN _ _ _ _
theorem ldImm (x : Nibble) (kk : Byte) : Statement (.ldImm x kk) := fieldC_packXKK _ _ _
theorem addImm (x : Nibble) (kk : Byte) : Statement (.addImm x kk) := fieldC_packXKK _ _ _
theorem ldReg (x : Nibble) (y : Nibble) : Statement (.ldReg x y) := fieldC_packXYN _ _ _ _
theorem orReg (x : Nibble) (y : Nibble) : Statement (.orReg x y) := fieldC_packXYN _ _ _ _
theorem andReg (x : Nibble) (y : Nibble) : Statement (.andReg x y) := fieldC_packXYN _ _ _ _
theorem xorReg (x : Nibble) (y : Nibble) : Statement (.xorReg x y) := fieldC_packXYN _ _ _ _
theorem addReg (x : Nibble) (y : Nibble) : Statement (.addReg x y) := fieldC_packXYN _ _ _ _
theorem sub (x : Nibble) (y : Nibble) : Statement (.sub x y) := fieldC_packXYN _ _ _ _
theorem shr (x : Nibble) (y : Nibble) : Statement (.shr x y) := fieldC_packXYN _ _ _ _
theorem subn (x : Nibble) (y : Nibble) : Statement (.subn x y) := fieldC_packXYN _ _ _ _
theorem shl (x : Nibble) (y : Nibble) : Statement (.shl x y) := fieldC_packXYN _ _ _ _
theorem ldI (nnn : Addr) : Statement (.ldI nnn) := fieldC_packNNN _ _
theorem jpV0 (nnn : Addr) : Statement (.jpV0 nnn) := fieldC_packNNN _ _
theorem rnd (x : Nibble) (kk : Byte) : Statement (.rnd x kk) := fieldC_packXKK _ _ _
theorem drw (x : Nibble) (y : Nibble) (n : Nibble) : Statement (.drw x y n) := fieldC_packXYN _ _ _ _
theorem skp (x : Nibble) : Statement (.skp x) := fieldC_packXKK _ _ _
theorem sknp (x : Nibble) : Statement (.sknp x) := fieldC_packXKK _ _ _
theorem ldVxDt (x : Nibble) : Statement (.ldVxDt x) := fieldC_packXKK _ _ _
theorem ldDtVx (x : Nibble) : Statement (.ldDtVx x) := fieldC_packXKK _ _ _
theorem ldStVx (x : Nibble) : Statement (.ldStVx x) := fieldC_packXKK _ _ _
theorem ldVxK (x : Nibble) : Statement (.ldVxK x) := fieldC_packXKK _ _ _
theorem addI (x : Nibble) : Statement (.addI x) := fieldC_packXKK _ _ _
theorem ldF (x : Nibble) : Statement (.ldF x) := fieldC_packXKK _ _ _
theorem ldB (x : Nibble) : Statement (.ldB x) := fieldC_packXKK _ _ _
theorem ldMemVx (x : Nibble) : Statement (.ldMemVx x) := fieldC_packXKK _ _ _
theorem ldVxMem (x : Nibble) : Statement (.ldVxMem x) := fieldC_packXKK _ _ _

end Sys2Proof.Laws.FamilyNibble
end

