-- ==== Sys2Proof/Laws/Screen.lean ====
section
/-!
SUPPORT. What the compositor does to pixels: the byte-level operations of `44_display.md` R221 read
through `Display.pixel`.
-/

namespace Sys2Proof.Machine

/-- Two bytes collide iff some bit is set in both. -/
theorem collides_iff (a b : Byte) :
    collides a b = true ↔ ∃ k < 8, a.getLsbD k = true ∧ b.getLsbD k = true := by
  simp only [collides, bne_iff_ne, ne_eq]
  constructor
  · intro h
    by_contra hn
    apply h
    apply BitVec.eq_of_getLsbD_eq
    intro k hk
    have := fun ha hb => hn ⟨k, hk, ha, hb⟩
    cases ha : a.getLsbD k <;> cases hb : b.getLsbD k <;> simp_all
  · rintro ⟨k, -, ha, hb⟩ h
    have := congrArg (·.getLsbD k) h
    simp [ha, hb] at this

theorem Display.getD_setIfInBounds (d : Display) {i j : Nat} (w : Byte) (hi : i < 256) :
    (d.setIfInBounds i w).getD j 0 = if j = i then w else d.getD j 0 := by
  by_cases hj : j < 256
  · simp [Vector.getD, hj, Array.getElem_setIfInBounds, eq_comm]
  · have : j ≠ i := by omega
    simp [Vector.getD, hj, this]

/-- Two displays with the same pixels are the same display. -/
theorem Display.ext_pixel {d e : Display}
    (h : ∀ px < 64, ∀ py < 32, d.pixel px py = e.pixel px py) : d = e := by
  apply Vector.ext
  intro k hk
  apply BitVec.eq_of_getLsbD_eq
  intro b hb
  have := h (k % 8 * 8 + (7 - b)) (by omega) (k / 8) (by omega)
  have e1 : k / 8 * 8 + (k % 8 * 8 + (7 - b)) / 8 = k := by omega
  have e2 : 7 - (k % 8 * 8 + (7 - b)) % 8 = b := by omega
  simp only [Display.pixel, e1, e2] at this
  simpa [Vector.getD, hk] using this

/-- The bit of a sprite byte that falls on column `px` when its left edge is at column `ox`. -/
def spriteBit (b : Byte) (ox px : Nat) : Bool :=
  decide (ox ≤ px) && (decide (px < ox + 8) && b.getLsbD (7 - (px - ox)))

/-- The first half carries the sprite bits of the columns of its display byte. -/
theorem highHalf_bit (b : Byte) {ox px : Nat} (h : px / 8 = ox / 8) :
    (highHalf b ox).getLsbD (7 - px % 8) = spriteBit b ox px := by
  simp only [highHalf, BitVec.getLsbD_ushiftRight, spriteBit]
  by_cases hle : ox ≤ px
  · have h1 : px < ox + 8 := by omega
    have e : ox % 8 + (7 - px % 8) = 7 - (px - ox) := by omega
    simp [hle, h1, e]
  · have : 8 ≤ ox % 8 + (7 - px % 8) := by omega
    simp [hle, BitVec.getLsbD_of_ge _ _ this]

/-- The second half carries those of the next display byte. -/
theorem lowHalf_bit (b : Byte) {ox px : Nat} (h : px / 8 = ox / 8 + 1) :
    (lowHalf b ox).getLsbD (7 - px % 8) = spriteBit b ox px := by
  simp only [lowHalf, BitVec.getLsbD_shiftLeft, spriteBit]
  have hle : ox ≤ px := by omega
  by_cases h1 : px < ox + 8
  · have e : 7 - px % 8 - (8 - ox % 8) = 7 - (px - ox) := by omega
    have h2 : 7 - px % 8 < 8 := by omega
    have h3 : ¬ 7 - px % 8 < 8 - ox % 8 := by omega
    simp [hle, h1, e, h2, h3]
  · have h3 : 7 - px % 8 < 8 - ox % 8 := by omega
    simp [h1, h3]

/-- Outside the columns of the two display bytes the sprite has no bit. -/
theorem spriteBit_outside (b : Byte) {ox px : Nat} (h : px / 8 ≠ ox / 8) (h' : px / 8 ≠ ox / 8 + 1) :
    spriteBit b ox px = false := by
  simp only [spriteBit, Bool.and_eq_false_iff, decide_eq_false_iff_not]
  omega

theorem xorHalf_pixel (d : Display) {idx : Nat} (half : Byte) (hidx : idx < 256) (px py : Nat) :
    (xorHalf d idx half).1.pixel px py =
      (d.pixel px py ^^ (decide (py * 8 + px / 8 = idx) && half.getLsbD (7 - px % 8))) := by
  simp only [xorHalf, Display.pixel, Display.getD_setIfInBounds d _ hidx]
  by_cases h : py * 8 + px / 8 = idx <;> simp [h]

theorem xorHalf_collides (d : Display) {cb oy : Nat} (half : Byte) (hcb : cb < 8) :
    (xorHalf d (oy * 8 + cb) half).2 = true ↔
      ∃ px, px / 8 = cb ∧ d.pixel px oy = true ∧ half.getLsbD (7 - px % 8) = true := by
  simp only [xorHalf, collides_iff, Display.pixel]
  constructor
  · rintro ⟨k, hk, h1, h2⟩
    have e1 : (cb * 8 + (7 - k)) / 8 = cb := by omega
    have e2 : 7 - (cb * 8 + (7 - k)) % 8 = k := by omega
    exact ⟨cb * 8 + (7 - k), e1, by rw [e1, e2]; exact h1, by rw [e2]; exact h2⟩
  · rintro ⟨px, rfl, h1, h2⟩
    exact ⟨7 - px % 8, by omega, h1, h2⟩

/-- One sprite row toggles, on its own display row, exactly the visible columns where the sprite
byte has a bit. -/
theorem drawRow_pixel (d : Display) {ox oy px py : Nat} (b : Byte) (hox : ox < 64) (hoy : oy < 32)
    (hpx : px < 64) :
    (drawRow d ox oy b).1.pixel px py = (d.pixel px py ^^ (decide (py = oy) && spriteBit b ox px)) := by
  have hfirst : oy * 8 + ox / 8 < 256 := by omega
  by_cases hcb : ox / 8 < 7
  · have hsecond : oy * 8 + ox / 8 + 1 < 256 := by omega
    simp only [drawRow, hcb, if_true]
    rw [xorHalf_pixel _ _ hsecond, xorHalf_pixel _ _ hfirst]
    by_cases hpy : py = oy
    · subst hpy
      by_cases h1 : px / 8 = ox / 8
      · have h2 : ¬ py * 8 + px / 8 = py * 8 + ox / 8 + 1 := by omega
        simp [h1, highHalf_bit b h1]
      · by_cases h2 : px / 8 = ox / 8 + 1
        · simp [h2, lowHalf_bit b h2, Nat.add_assoc]
        · have e1 : ¬ py * 8 + px / 8 = py * 8 + ox / 8 := by omega
          have e2 : ¬ py * 8 + px / 8 = py * 8 + ox / 8 + 1 := by omega
          simp only [e1, e2, spriteBit_outside b h1 h2, decide_false, Bool.false_and, Bool.xor_false,
            Bool.and_false]
    · have e1 : ¬ py * 8 + px / 8 = oy * 8 + ox / 8 := by omega
      have e2 : ¬ py * 8 + px / 8 = oy * 8 + ox / 8 + 1 := by omega
      simp only [e1, e2, hpy, decide_false, Bool.false_and, Bool.xor_false]
  · simp only [drawRow, hcb, if_false]
    rw [xorHalf_pixel _ _ hfirst]
    by_cases hpy : py = oy
    · subst hpy
      by_cases h1 : px / 8 = ox / 8
      · simp [h1, highHalf_bit b h1]
      · have e1 : ¬ py * 8 + px / 8 = py * 8 + ox / 8 := by omega
        have h2 : px / 8 ≠ ox / 8 + 1 := by omega
        simp only [e1, spriteBit_outside b h1 h2, decide_false, Bool.false_and, Bool.xor_false,
          Bool.and_false]
    · have e1 : ¬ py * 8 + px / 8 = oy * 8 + ox / 8 := by omega
      simp only [e1, hpy, decide_false, Bool.false_and, Bool.xor_false]

/-- One sprite row collides iff it toggles a lit pixel off inside the screen. -/
theorem drawRow_collides (d : Display) {ox oy : Nat} (b : Byte) (hox : ox < 64) (hoy : oy < 32) :
    (drawRow d ox oy b).2 = true ↔
      ∃ px < 64, d.pixel px oy = true ∧ spriteBit b ox px = true := by
  have hcb8 : ox / 8 < 8 := by omega
  have hfirst : oy * 8 + ox / 8 < 256 := by omega
  have key1 : (xorHalf d (oy * 8 + ox / 8) (highHalf b ox)).2 = true ↔
      ∃ px, px / 8 = ox / 8 ∧ d.pixel px oy = true ∧ spriteBit b ox px = true := by
    rw [xorHalf_collides d _ hcb8]
    constructor <;> rintro ⟨px, h, h1, h2⟩
    · exact ⟨px, h, h1, by rwa [highHalf_bit b h] at h2⟩
    · exact ⟨px, h, h1, by rwa [highHalf_bit b h]⟩
  by_cases hcb : ox / 8 < 7
  · simp only [drawRow, hcb, if_true, Bool.or_eq_true, key1]
    have key2 : (xorHalf (xorHalf d (oy * 8 + ox / 8) (highHalf b ox)).1 (oy * 8 + ox / 8 + 1)
        (lowHalf b ox)).2 = true ↔
        ∃ px, px / 8 = ox / 8 + 1 ∧ d.pixel px oy = true ∧ spriteBit b ox px = true := by
      have hcb' : ox / 8 + 1 < 8 := by omega
      rw [Nat.add_assoc, xorHalf_collides _ _ hcb']
      constructor <;> rintro ⟨px, h, h1, h2⟩
      · have e : ¬ oy * 8 + px / 8 = oy * 8 + ox / 8 := by omega
        rw [xorHalf_pixel _ _ hfirst] at h1
        simp only [e, decide_false, Bool.false_and, Bool.xor_false] at h1
        exact ⟨px, h, h1, by rwa [lowHalf_bit b h] at h2⟩
      · have e : ¬ oy * 8 + px / 8 = oy * 8 + ox / 8 := by omega
        refine ⟨px, h, ?_, by rwa [lowHalf_bit b h]⟩
        rw [xorHalf_pixel _ _ hfirst]
        simpa only [e, decide_false, Bool.false_and, Bool.xor_false] using h1
    rw [key2]
    constructor
    · rintro (⟨px, h, h1, h2⟩ | ⟨px, h, h1, h2⟩) <;> exact ⟨px, by omega, h1, h2⟩
    · rintro ⟨px, -, h1, h2⟩
      by_cases h : px / 8 = ox / 8
      · exact .inl ⟨px, h, h1, h2⟩
      · by_cases h' : px / 8 = ox / 8 + 1
        · exact .inr ⟨px, h', h1, h2⟩
        · simp [spriteBit_outside b h h'] at h2
  · simp only [drawRow, hcb, if_false, key1]
    constructor
    · rintro ⟨px, h, h1, h2⟩
      exact ⟨px, by omega, h1, h2⟩
    · rintro ⟨px, hpx, h1, h2⟩
      by_cases h : px / 8 = ox / 8
      · exact ⟨px, h, h1, h2⟩
      · have h' : px / 8 ≠ ox / 8 + 1 := by omega
        simp [spriteBit_outside b h h'] at h2

/-- The bit of a list of sprite rows, the first at row `oy`, that falls on a pixel. -/
def spritePixel (rows : List Byte) (ox oy px py : Nat) : Bool :=
  decide (oy ≤ py) && (decide (py < oy + rows.length) && spriteBit (rows.getD (py - oy) 0) ox px)

theorem spritePixel_cons (b : Byte) (rest : List Byte) (ox oy px py : Nat) :
    spritePixel (b :: rest) ox oy px py =
      ((decide (py = oy) && spriteBit b ox px) || spritePixel rest ox (oy + 1) px py) := by
  simp only [spritePixel, List.length_cons]
  by_cases h : py = oy
  · subst h
    have : ¬ py + 1 ≤ py := by omega
    simp [this]
  · by_cases hlt : oy < py
    · have e : py - oy = py - (oy + 1) + 1 := by omega
      have h1 : oy ≤ py := by omega
      have h2 : (decide (py < oy + (rest.length + 1))) = decide (py < oy + 1 + rest.length) := by
        congr 1; simp only [eq_iff_iff]; omega
      have h3 : oy + 1 ≤ py := by omega
      simp only [h, h1, h3, h2, e, List.getD_cons_succ, decide_true, decide_false, Bool.true_and,
        Bool.false_and, Bool.false_or]
    · have h1 : ¬ oy ≤ py := by omega
      have h3 : ¬ oy + 1 ≤ py := by omega
      simp [h, h1, h3]

/-- Drawing rows toggles exactly the visible pixels where the sprite has a bit. -/
theorem drawRows_pixel (d : Display) (rows : List Byte) {ox oy px py : Nat} (hox : ox < 64)
    (hoy : oy + rows.length ≤ 32) (hpx : px < 64) :
    (drawRows d ox oy rows).1.pixel px py = (d.pixel px py ^^ spritePixel rows ox oy px py) := by
  induction rows generalizing d oy with
  | nil =>
    have : spritePixel [] ox oy px py = false := by
      simp only [spritePixel, List.length_nil, Bool.and_eq_false_iff, decide_eq_false_iff_not]
      omega
    simp [drawRows, this]
  | cons b rest ih =>
    simp only [List.length_cons] at hoy
    simp only [drawRows]
    rw [ih _ (by omega), drawRow_pixel d b hox (by omega) hpx, spritePixel_cons]
    by_cases h : py = oy
    · have : spritePixel rest ox (oy + 1) px py = false := by
        simp only [spritePixel, Bool.and_eq_false_iff, decide_eq_false_iff_not]
        omega
      simp [this]
    · simp [h]

/-- Drawing rows collides iff it toggles some lit pixel of the screen off. -/
theorem drawRows_collides (d : Display) (rows : List Byte) {ox oy : Nat} (hox : ox < 64)
    (hoy : oy + rows.length ≤ 32) :
    (drawRows d ox oy rows).2 = true ↔
      ∃ px py, px < 64 ∧ py < 32 ∧ d.pixel px py = true ∧ spritePixel rows ox oy px py = true := by
  induction rows generalizing d oy with
  | nil =>
    simp only [drawRows, Bool.false_eq_true, false_iff]
    rintro ⟨px, py, -, -, -, h⟩
    simp only [spritePixel, List.length_nil, Bool.and_eq_true, decide_eq_true_eq] at h
    omega
  | cons b rest ih =>
    simp only [List.length_cons] at hoy
    simp only [drawRows, Bool.or_eq_true, drawRow_collides d b hox (show oy < 32 by omega)]
    rw [ih _ (by omega)]
    constructor
    · rintro (⟨px, hpx, h1, h2⟩ | ⟨px, py, hpx, hpy, h1, h2⟩)
      · exact ⟨px, oy, hpx, by omega, h1, by simp [spritePixel_cons, h2]⟩
      · have hne : py ≠ oy := by
          rintro rfl
          simp only [spritePixel, Bool.and_eq_true, decide_eq_true_eq] at h2
          omega
        rw [drawRow_pixel d b hox (by omega) hpx] at h1
        simp only [hne, decide_false, Bool.false_and, Bool.xor_false] at h1
        exact ⟨px, py, hpx, hpy, h1, by simp [spritePixel_cons, h2]⟩
    · rintro ⟨px, py, hpx, hpy, h1, h2⟩
      rw [spritePixel_cons, Bool.or_eq_true, Bool.and_eq_true, decide_eq_true_eq] at h2
      rcases h2 with ⟨rfl, h2⟩ | h2
      · exact .inl ⟨px, hpx, h1, h2⟩
      · have hne : py ≠ oy := by
          rintro rfl
          simp only [spritePixel, Bool.and_eq_true, decide_eq_true_eq] at h2
          omega
        refine .inr ⟨px, py, hpx, hpy, ?_, h2⟩
        rw [drawRow_pixel d b hox (by omega) hpx]
        simpa only [hne, decide_false, Bool.false_and, Bool.xor_false] using h1

end Sys2Proof.Machine
end

