-- ==== Sys2Proof/Laws/Step.lean ====
section
/-!
SUPPORT. What a step and the branching meanings can do, said once: later proofs cite these and do
not unfold `step` or a meaning that branches.
-/

namespace Sys2Proof.Machine

/-! ### The state an instruction acts in -/

theorem State.enter_eq (s : State) :
    s.enter = { s with
      pc := mask12 (s.pc + 2)
      dt := countDown s.dt
      st := countDown s.st
      soundRequest := s.soundRequest || s.st == 1
      report := .none } := rfl

@[simp] theorem State.enter_font (s : State) : s.enter.font = s.font := rfl
@[simp] theorem State.enter_mem (s : State) : s.enter.mem = s.mem := rfl
@[simp] theorem State.enter_v (s : State) : s.enter.v = s.v := rfl
@[simp] theorem State.enter_i (s : State) : s.enter.i = s.i := rfl
@[simp] theorem State.enter_sp (s : State) : s.enter.sp = s.sp := rfl
@[simp] theorem State.enter_stack (s : State) : s.enter.stack = s.stack := rfl
@[simp] theorem State.enter_dt (s : State) : s.enter.dt = countDown s.dt := rfl
@[simp] theorem State.enter_st (s : State) : s.enter.st = countDown s.st := rfl
@[simp] theorem State.enter_display (s : State) : s.enter.display = s.display := rfl
@[simp] theorem State.enter_report (s : State) : s.enter.report = .none := rfl
@[simp] theorem State.enter_reportSeen (s : State) : s.enter.reportSeen = s.reportSeen := rfl

/-- The word a step fetches is the one at `pc`: neither the cleared report nor the tick touches `pc`
or `mem`. -/
@[simp] theorem State.fetchWord_tick (s : State) : s.clearReport.tick.fetchWord = s.fetchWord := rfl

/-! ### A step, by what the word decodes to -/

theorem step_of_ok {s : State} {i : Instr} (h : decodeWord s.fetchWord = .ok i) :
    step s = endStep (exec i s.enter) := by
  simp only [step, State.fetchWord_tick, h]

theorem step_of_error {s : State} {r : DecodeReject} (h : decodeWord s.fetchWord = .error r) :
    step s = .next (s.enter.unrecognised s.fetchWord).dropRnd := by
  simp only [step, State.fetchWord_tick, h, endStep]

theorem nextInstr_some {s : State} {i : Instr} :
    s.nextInstr = some i ↔ decodeWord s.fetchWord = .ok i := by
  unfold State.nextInstr
  cases decodeWord s.fetchWord <;> simp

theorem nextInstr_none {s : State} :
    s.nextInstr = none ↔ ∃ r, decodeWord s.fetchWord = .error r := by
  unfold State.nextInstr
  cases decodeWord s.fetchWord <;> simp

/-- A step that answers a next state executed an instruction or reported an unrecognised word. -/
theorem step_cases {s t : State} (h : step s = .next t) :
    (∃ i u, s.nextInstr = some i ∧ exec i s.enter = .next u ∧ t = u.dropRnd) ∨
      (s.nextInstr = none ∧ t = (s.enter.unrecognised s.fetchWord).dropRnd) := by
  cases hd : decodeWord s.fetchWord with
  | ok i =>
    rw [step_of_ok hd] at h
    obtain ⟨u, hu, rfl⟩ := endStep_next.1 h
    exact .inl ⟨i, u, nextInstr_some.2 hd, hu, rfl⟩
  | error r =>
    rw [step_of_error hd] at h
    injection h with h
    exact .inr ⟨nextInstr_none.2 ⟨r, hd⟩, h.symm⟩

/-! ### The meanings that branch -/

/-- `RET` either reports an underflow or pops. -/
theorem execRet_cases {s t : State} (h : execRet s = .next t) :
    (s.sp = 0 ∧ t = s.raise (.stackUnderflow s.instrAddr)) ∨
      (s.sp ≠ 0 ∧ ∃ h : (s.sp - 1).toNat < 16,
        t = { s with sp := s.sp - 1, pc := mask12 (s.stack[(s.sp - 1).toNat]'h) }) := by
  unfold execRet at h
  split at h
  · next h0 => injection h with h; exact .inl ⟨h0, h.symm⟩
  · next h0 =>
    refine .inr ⟨h0, ?_⟩
    by_cases hlt : (s.sp - 1).toNat < 16
    · simp only [State.pop, hlt, dif_pos] at h
      injection h with h
      exact ⟨hlt, h.symm⟩
    · simp only [State.pop, hlt, dif_neg, not_false_eq_true] at h
      cases h

/-- `CALL` either reports an overflow or pushes and jumps. -/
theorem execCall_cases {s t : State} {nnn : Addr} (h : execCall nnn s = .next t) :
    (s.sp = 16 ∧ t = s.raise (.stackOverflow s.instrAddr)) ∨
      (s.sp ≠ 16 ∧ ∃ h : s.sp.toNat < 16,
        t = { s with stack := s.stack.set s.sp.toNat s.pc h, sp := s.sp + 1, pc := addrWord nnn }) := by
  unfold execCall at h
  split at h
  · next h0 => injection h with h; exact .inl ⟨h0, h.symm⟩
  · next h0 =>
    refine .inr ⟨h0, ?_⟩
    by_cases hlt : s.sp.toNat < 16
    · simp only [State.push_of_lt _ hlt] at h
      injection h with h
      refine ⟨hlt, h.symm.trans ?_⟩
      simp only [State.setPc, mask12_addrWord]
    · simp [State.push, hlt] at h

/-- `CALL` with a slot to push into. -/
theorem execCall_of_lt {s : State} (nnn : Addr) (h : s.sp.toNat < 16) :
    execCall nnn s = .next { s with
      stack := s.stack.set s.sp.toNat s.pc h, sp := s.sp + 1, pc := addrWord nnn } := by
  have h0 : s.sp ≠ 16 := fun e => by rw [e] at h; exact absurd h (by decide)
  rw [execCall, if_neg h0]
  simp only [State.push_of_lt _ h, State.setPc, mask12_addrWord]

/-- `RET` with a slot to pop. -/
theorem execRet_of_pos {s : State} (h0 : 0 < s.sp.toNat) (h : s.sp.toNat ≤ 16) :
    execRet s = .next { s with
      sp := s.sp - 1, pc := mask12 (s.stack[s.sp.toNat - 1]'(by omega)) } := by
  have hne : s.sp ≠ 0 := fun e => by rw [e] at h0; exact absurd h0 (by decide)
  have hs : (s.sp - 1).toNat = s.sp.toNat - 1 := by
    rw [BitVec.toNat_sub, show (1 : BitVec 5).toNat = 1 from rfl]; omega
  rw [execRet, if_neg hne]
  simp only [State.pop, hs, show s.sp.toNat - 1 < 16 by omega, dif_pos, State.setPc]

/-- The key-wait either resolves with a key that is down or undoes the fetch advance. -/
theorem execLdVxK_cases {s t : State} {x : Nibble} (h : execLdVxK x s = .next t) :
    (∃ k, s.lowestKey = some k ∧ t = s.setReg x (k.setWidth 8)) ∨
      (s.lowestKey = none ∧ t = s.setPc (s.pc - 2)) := by
  unfold execLdVxK at h
  split at h
  · next k hk => injection h with h; exact .inl ⟨k, hk, h.symm⟩
  · next hk => injection h with h; exact .inr ⟨hk, h.symm⟩

/-! ### `DRW` -/

/-- The sprite rows that `DRW` draws. -/
def State.spriteRows (s : State) (y n : Nibble) : List Byte :=
  (s.loadBytes n.toNat).take (visibleRows n (originRow (s.reg y)))

theorem State.spriteRows_length (s : State) (y n : Nibble) :
    (s.spriteRows y n).length = visibleRows n (originRow (s.reg y)) := by
  simp only [State.spriteRows, List.length_take, State.loadBytes_length, visibleRows]
  omega

theorem State.spriteRows_getD (s : State) (y n : Nibble) {r : Nat}
    (h : r < visibleRows n (originRow (s.reg y))) :
    (s.spriteRows y n).getD r 0 = s.memRead (effAddr s.i r) := by
  have hn : r < n.toNat := Nat.lt_of_lt_of_le h (Nat.min_le_left _ _)
  rw [State.spriteRows, List.getD, List.getElem?_take_of_lt h, ← List.getD,
    State.loadBytes_getD s hn]

theorem originRow_add_visible (n : Nibble) (b : Byte) :
    originRow b + visibleRows n (originRow b) ≤ 32 := by
  simp only [originRow, visibleRows]
  omega

theorem execDrw_eq (x y n : Nibble) (s : State) :
    execDrw x y n s = .next { s with
      v := s.v.set 15 (flagByte
        (drawRows s.display (originCol (s.reg x)) (originRow (s.reg y)) (s.spriteRows y n)).2)
      display :=
        (drawRows s.display (originCol (s.reg x)) (originRow (s.reg y)) (s.spriteRows y n)).1 } := by
  simp only [execDrw, State.spriteRows, State.setReg, State.setDisplay, regF]
  congr 2
  apply Vector.ext
  intro k hk
  have e : (15#4 : Nibble).toNat = 15 := rfl
  simp only [Vector.getElem_set, e]
  split <;> rfl

end Sys2Proof.Machine
end

