-- ==== Sys2Proof/Laws/Session.lean ====
section
/-!
SUPPORT. What a load and an event of a session can do, said once.
-/

namespace Sys2Proof.Machine

/-! ### `State.hostMove` -/

@[simp] theorem State.setKey_mem (s : State) (k : Nat) (p : Bool) : (s.setKey k p).mem = s.mem := by
  unfold State.setKey; split <;> rfl
@[simp] theorem State.setKey_font (s : State) (k : Nat) (p : Bool) :
    (s.setKey k p).font = s.font := by
  unfold State.setKey; split <;> rfl

/-- A move of the host changes the keys and `sound_request` alone. -/
theorem State.hostMove_eq (s : State) (m : HostMove) :
    s.hostMove m = { s with
      keyboard := (s.hostMove m).keyboard
      soundRequest := (s.hostMove m).soundRequest } := by
  cases m with
  | setKey k p => simp only [State.hostMove, State.setKey]; split <;> rfl
  | clearSound => rfl

/-! ### `Session.load` -/

/-- A load succeeds exactly once, on a ROM that fits, and places its bytes from 0x200. -/
theorem Session.load_ok_iff {x y : Session} {rom : List Byte} :
    x.load rom = .ok y ↔ x.fresh = true ∧ rom.length ≤ maxRom ∧
      y = ⟨{ x.machine with mem := x.machine.mem.putAll Config.programStart rom }, false⟩ := by
  unfold Session.load
  by_cases hf : x.fresh = true
  · by_cases hl : maxRom < rom.length
    · simp [hf, hl]
    · simp [hf, hl, Nat.le_of_not_lt hl, eq_comm]
  · simp [hf]

theorem Session.load_tooLarge {x : Session} {rom : List Byte} (hf : x.fresh = true)
    (hl : maxRom < rom.length) : x.load rom = .error .tooLarge := by
  rw [Session.load, if_pos hf, if_pos hl]

theorem Session.load_notFresh {x : Session} (rom : List Byte) (hf : x.fresh = false) :
    x.load rom = .error .notFreshlyReset := by
  rw [Session.load, if_neg (by simp [hf])]

/-- What reads where after a ROM that fits was placed. -/
theorem State.memRead_putAll (s : State) {rom : List Byte} {a : Nat} (hwf : s.mem.wf = true)
    (hl : rom.length ≤ maxRom) (ha : a < 4096) :
    ({ s with mem := s.mem.putAll Config.programStart rom } : State).memRead a =
      if 0x200 ≤ a ∧ a < 0x200 + rom.length then rom.getD (a - 0x200) 0 else s.memRead a := by
  have hl' : rom.length ≤ 3584 := hl
  have e : a % 4096 = a := Nat.mod_eq_of_lt ha
  by_cases hf : a < 80
  · have hf' : a % 4096 < Config.fontSize := e.symm ▸ hf
    rw [State.memRead_font _ hf', State.memRead_font _ hf', if_neg (by omega)]
  · have hf' : Config.fontSize ≤ a % 4096 := e.symm ▸ Nat.le_of_not_lt hf
    rw [State.memRead_mem _ hf', State.memRead_mem _ hf', e]
    exact Memory.read_putAll a (by decide) (Nat.add_le_add_left hl' 0x200) hwf

/-! ### `Session.event` -/

theorem Session.event_load_ok {x y : Session} {rom : List Byte} (h : x.load rom = .ok y) :
    x.event (.load rom) = .next y := by
  simp only [Session.event, h]

theorem Session.event_load_error {x : Session} {rom : List Byte} {e : LoadError}
    (h : x.load rom = .error e) : x.event (.load rom) = .next x := by
  simp only [Session.event, h]

/-- What an event that answers a next session did. -/
theorem Session.event_cases {x y : Session} {e : Event} (h : x.event e = .next y) :
    (∃ rom, e = .load rom ∧ (x.load rom = .ok y ∨ ∃ r, x.load rom = .error r ∧ y = x)) ∨
    (∃ b t, e = .step b ∧ x.machine.stepWith b = .next t ∧ y = ⟨t, false⟩) ∨
    (∃ m, e = .host m ∧ y = { x with machine := x.machine.hostMove m }) := by
  cases e with
  | load rom =>
    refine .inl ⟨rom, rfl, ?_⟩
    cases hl : x.load rom with
    | ok z => rw [Session.event_load_ok hl] at h; injection h with h; exact .inl (h ▸ rfl)
    | error r =>
      rw [Session.event_load_error hl] at h; injection h with h; exact .inr ⟨r, rfl, h.symm⟩
  | step b =>
    refine .inr (.inl ⟨b, ?_⟩)
    simp only [Session.event] at h
    split at h
    · next t ht => injection h with h; exact ⟨t, rfl, ht, h.symm⟩
    · cases h
    · cases h
  | host m => simp only [Session.event] at h; injection h with h; exact .inr (.inr ⟨m, rfl, h.symm⟩)

/-- No event gives a session its load back. -/
theorem Session.fresh_event {x y : Session} {e : Event} (h : x.event e = .next y)
    (hx : x.fresh = false) : y.fresh = false := by
  rcases Session.event_cases h with
    ⟨rom, -, hl | ⟨r, -, rfl⟩⟩ | ⟨b, t, -, -, rfl⟩ | ⟨m, -, rfl⟩
  · rw [(Session.load_ok_iff.1 hl).2.2]
  · exact hx
  · rfl
  · exact hx

end Sys2Proof.Machine
end

