-- ==== Sys2Proof/Tests/Slice0.lean ====
section
/-!
SUPPORT. The model's own tests. Expected results come from the spec: the vectors of
`95_test_vectors.md` (named V-.. and S..), Table R97 and the worked values of the rules. Then, for
every statement with hypotheses, a state and operands that meet them together.
-/

namespace Sys2Proof.Tests

-- The kernel checks below one after another, not each in a thread of its own.
set_option Elab.async false

open Sys2Proof Sys2Proof.Machine Sys2Proof.Claims

/-! ### Helpers -/

/-- The reset state with two registers set. -/
def regs (x : Nibble) (a : Byte) (y : Nibble) (b : Byte) : State :=
  (State.reset.setReg x a).setReg y b

/-- A state with bytes placed in memory. -/
def withBytes (s : State) (a : Nat) (bytes : List Byte) : State := s.place a bytes

/-- The state after one step that runs the word `w`. -/
def after (s : State) (w : Nat) : Option State :=
  match step (s.withFetchWord 16 w) with
  | .next t => some t
  | .fault _ => none
  | .refused _ => none

/-- The two bytes from `a` upward. -/
def pairAt (t : State) (a : Nat) : Byte × Byte := (t.memRead a, t.memRead (a + 1))

/-! ### Well-formedness: the two words that are not `0nnn` (R142) -/

theorem test_wf_refuses_sys_00E0 : (Instr.sys 0x0E0).wf = false := by decide
theorem test_wf_refuses_sys_00EE : (Instr.sys 0x0EE).wf = false := by decide
theorem test_wf_accepts_the_neighbours :
    ([0x0DF, 0x0E1, 0x0ED, 0x0EF, 0x000, 0xFFF].all fun nnn => (Instr.sys nnn).wf) = true := by
  decide

/-! ### Decoding: a word of every row of Table R97, written out from its format (Table R92) -/

theorem test_decode_fixed_and_sys :
    decodeWord 0b0000000011100000#16 = .ok .cls ∧ decodeWord 0b0000000011101110#16 = .ok .ret ∧
    decodeWord 0b0000000011100001#16 = .ok (.sys 0x0E1) ∧
    decodeWord 0b0000111011101110#16 = .ok (.sys 0xEEE) := by decide

theorem test_decode_nnn :
    decodeWord 0b0001001000110100#16 = .ok (.jp 0x234) ∧
    decodeWord 0b0010101111001101#16 = .ok (.call 0xBCD) ∧
    decodeWord 0b1010000100100011#16 = .ok (.ldI 0x123) ∧
    decodeWord 0b1011111111111111#16 = .ok (.jpV0 0xFFF) := by decide

theorem test_decode_xkk :
    decodeWord 0b0011000111111110#16 = .ok (.seImm 0x1 0xFE) ∧
    decodeWord 0b0100001000010001#16 = .ok (.sneImm 0x2 0x11) ∧
    decodeWord 0b0110101000010001#16 = .ok (.ldImm 0xA 0x11) ∧
    decodeWord 0b0111000111111111#16 = .ok (.addImm 0x1 0xFF) ∧
    decodeWord 0b1100001100001111#16 = .ok (.rnd 0x3 0x0F) := by decide

theorem test_decode_xy_compare :
    decodeWord 0b0101101010110000#16 = .ok (.seReg 0xA 0xB) ∧
    decodeWord 0b1001001101000000#16 = .ok (.sneReg 0x3 0x4) := by decide

theorem test_decode_xy_family8 :
    decodeWord 0b1000000100100000#16 = .ok (.ldReg 0x1 0x2) ∧
    decodeWord 0b1000000100100001#16 = .ok (.orReg 0x1 0x2) ∧
    decodeWord 0b1000000100100010#16 = .ok (.andReg 0x1 0x2) ∧
    decodeWord 0b1000000100100011#16 = .ok (.xorReg 0x1 0x2) ∧
    decodeWord 0b1000101010110100#16 = .ok (.addReg 0xA 0xB) ∧
    decodeWord 0b1000111100010101#16 = .ok (.sub 0xF 0x1) ∧
    decodeWord 0b1000000100100110#16 = .ok (.shr 0x1 0x2) ∧
    decodeWord 0b1000000100100111#16 = .ok (.subn 0x1 0x2) ∧
    decodeWord 0b1000101010111110#16 = .ok (.shl 0xA 0xB) := by decide

theorem test_decode_xyn :
    decodeWord 0b1101000100101111#16 = .ok (.drw 0x1 0x2 0xF) ∧
    decodeWord 0b1101111100100001#16 = .ok (.drw 0xF 0x2 0x1) := by decide

theorem test_decode_x :
    decodeWord 0b1110000110011110#16 = .ok (.skp 0x1) ∧
    decodeWord 0b1110010010100001#16 = .ok (.sknp 0x4) ∧
    decodeWord 0b1111001100000111#16 = .ok (.ldVxDt 0x3) ∧
    decodeWord 0b1111000000010101#16 = .ok (.ldDtVx 0x0) ∧
    decodeWord 0b1111000100011000#16 = .ok (.ldStVx 0x1) ∧
    decodeWord 0b1111000100001010#16 = .ok (.ldVxK 0x1) ∧
    decodeWord 0b1111001000011110#16 = .ok (.addI 0x2) ∧
    decodeWord 0b1111000000101001#16 = .ok (.ldF 0x0) ∧
    decodeWord 0b1111110000110011#16 = .ok (.ldB 0xC) ∧
    decodeWord 0b1111001001010101#16 = .ok (.ldMemVx 0x2) ∧
    decodeWord 0b1111111101100101#16 = .ok (.ldVxMem 0xF) := by decide

/-- V-E6, V-E9, V-E12, V-E14 and V-U2. -/
theorem test_decode_rejects_by_name :
    decodeWord 0x8AB8#16 = .error .family8 ∧ decodeWord 0x5AB1#16 = .error .family5 ∧
    decodeWord 0xE19F#16 = .error .familyE ∧ decodeWord 0xF100#16 = .error .familyF ∧
    decodeWord 0x9AB1#16 = .error .family9 ∧ decode [0x12] = .error .truncated := by decide

/-- V-E16: the byte at the lower address is the high one. -/
theorem test_decode_bytes :
    decode [0x12, 0x34, 0x56] = .ok (.jp 0x234, [0x56]) ∧
    decodeTableWord 16 0x1234 = some (.jp 0x234) := by decide

/-! ### Reset and the host's ports -/

/-- R300, R62: `pc` at 0x200, `mem[0]` the first byte of glyph 0, `mem[0x4F]` the last of glyph F. -/
theorem test_reset :
    State.reset.pc = 0x200 ∧ State.reset.memRead 0 = 0xF0 ∧ State.reset.memRead 0x4F = 0x80 ∧
    State.reset.memRead 0x50 = 0 ∧ State.reset.mem.wf = true := by decide

/-- A session on the default machine. -/
def session : Session := Session.start defaultFont

/-- R302: byte 0 of a ROM lands at 0x200. -/
theorem test_load_places_first_byte :
    (match session.load [0x12, 0x34] with
      | .ok y => some (pairAt y.machine 0x200)
      | .error _ => none) = some (0x12, 0x34) := by decide +kernel

/-- R74, D27: an all-zero ROM, which leaves the machine equal to the reset one, is still a load. -/
theorem test_second_load_refused :
    (match session.load [0x00, 0x00] with
      | .ok y => some (y.machine == State.reset, y.load [0x12, 0x34])
      | .error _ => none) = some (true, .error .notFreshlyReset) := by decide +kernel

/-- R41: the table is a parameter; with another one, glyph 0 is what that table says. -/
theorem test_other_font :
    (State.resetWith (Vector.replicate 80 0xAA)).memRead 4 = 0xAA ∧ State.reset.memRead 4 = 0xF0 := by
  decide +kernel

/-! ### One step each: control transfer -/

/-- V-C1. -/
theorem test_jp : (after State.reset 0x1ABC).map (·.pc) = some 0xABC := by decide +kernel
/-- V-C2. -/
theorem test_sys : (after State.reset 0x0300).map (fun t => (t.pc, t.sp)) = some (0x300, 0) := by
  decide +kernel
/-- V-C3. -/
theorem test_jpV0 : (after (regs 0 0x04 1 0) 0xB300).map (·.pc) = some 0x304 := by decide +kernel
/-- V-C4: the sum 0x1001 is reduced, the odd `pc` accepted. -/
theorem test_jpV0_wraps : (after (regs 0 0x02 1 0) 0xBFFF).map (·.pc) = some 0x001 := by
  decide +kernel
/-- V-C5 and V-C6. -/
theorem test_seImm :
    (after { State.reset with pc := 0x208 } 0x3100).map (·.pc) = some 0x20C ∧
    (after { regs 1 1 0 0 with pc := 0x208 } 0x3100).map (·.pc) = some 0x20A := by decide +kernel
/-- V-C13: the skip wraps. -/
theorem test_seImm_wraps :
    (after { State.reset with pc := 0xFFC } 0x3100).map (·.pc) = some 0x000 := by decide +kernel
/-- V-C7 and V-C8. -/
theorem test_sneImm :
    (after { regs 2 0x10 0 0 with pc := 0x300 } 0x4211).map (·.pc) = some 0x304 ∧
    (after { regs 2 0x11 0 0 with pc := 0x300 } 0x4211).map (·.pc) = some 0x302 := by
  decide +kernel
/-- V-C9. -/
theorem test_seReg :
    (after { regs 3 0x7F 4 0x7F with pc := 0x220 } 0x5340).map (·.pc) = some 0x224 := by
  decide +kernel
/-- V-C10 and V-C12. -/
theorem test_sneReg :
    (after { regs 3 0x01 4 0x02 with pc := 0x220 } 0x9340).map (·.pc) = some 0x224 ∧
    (after { regs 3 0x01 4 0x02 with pc := 0x220 } 0x9330).map (·.pc) = some 0x222 := by
  decide +kernel
/-- V-U9: the last slot. -/
theorem test_call :
    (after { State.reset with sp := 15 } 0x2300).map
      (fun t => (t.pc, t.sp, t.stack.getD 15 0, t.report)) = some (0x300, 16, 0x202, .none) := by
  decide +kernel
/-- V-U8. -/
theorem test_call_overflow :
    (after { State.reset with sp := 16 } 0x2300).map (fun t => (t.pc, t.sp, t.report)) =
      some (0x202, 16, .stackOverflow 0x200) := by decide +kernel
/-- S6, its second step. -/
theorem test_ret :
    (after { State.reset with pc := 0x210, sp := 1, stack := State.reset.stack.set 0 0x206 }
      0x00EE).map (fun t => (t.pc, t.sp)) = some (0x206, 0) := by decide +kernel
/-- V-U7. -/
theorem test_ret_underflow :
    (after State.reset 0x00EE).map (fun t => (t.pc, t.sp, t.report)) =
      some (0x202, 0, .stackUnderflow 0x200) := by decide +kernel

/-! ### One step each: loads, ALU, random -/

/-- V-A1 and V-A2. -/
theorem test_ldImm :
    (after State.reset 0x6105).map (·.reg 1) = some 0x05 ∧
    (after State.reset 0x6FAB).map (·.reg 0xF) = some 0xAB := by decide +kernel
/-- V-C15: a fetch across the top of memory. -/
theorem test_ldImm_fetched_across_the_top :
    (after { State.reset with pc := 0xFFF } 0x6AF0).map (fun t => (t.reg 0xA, t.pc)) =
      some (0xF0, 0x001) := by decide +kernel
/-- V-A4: no carry flag. -/
theorem test_addImm :
    (after (regs 1 0xFF 0xF 0) 0x7101).map (fun t => (t.reg 1, t.reg 0xF)) = some (0x00, 0x00) := by
  decide +kernel
/-- V-A5. -/
theorem test_ldReg : (after (regs 1 0 2 0xAB) 0x8120).map (·.reg 1) = some 0xAB := by
  decide +kernel
/-- V-A6. -/
theorem test_or :
    (after (regs 1 0xF0 2 0x0F) 0x8121).map (fun t => (t.reg 1, t.reg 0xF)) = some (0xFF, 0) := by
  decide +kernel
/-- V-A7. -/
theorem test_and : (after (regs 1 0xF3 2 0x3F) 0x8122).map (·.reg 1) = some 0x33 := by
  decide +kernel
/-- V-A8. -/
theorem test_xor : (after (regs 1 0xFF 2 0x0F) 0x8123).map (·.reg 1) = some 0xF0 := by
  decide +kernel
/-- V-A12 and V-A13: a sum of exactly 256 and of exactly 255. -/
theorem test_addReg :
    (after (regs 1 0x64 2 0x9C) 0x8124).map (fun t => (t.reg 1, t.reg 0xF)) = some (0x00, 0x01) ∧
    (after (regs 1 0x64 2 0x9B) 0x8124).map (fun t => (t.reg 1, t.reg 0xF)) = some (0xFF, 0x00) := by
  decide +kernel
/-- V-A9 and V-A10: `VF` as destination and as source. -/
theorem test_addReg_VF :
    (after (regs 1 0x03 0xF 0xFF) 0x8F14).map (fun t => (t.reg 1, t.reg 0xF)) = some (0x03, 0x02) ∧
    (after (regs 1 0xFF 0xF 0x01) 0x81F4).map (fun t => (t.reg 1, t.reg 0xF)) = some (0x00, 0x01) := by
  decide +kernel
/-- V-A15 and S2 (equal operands count as no borrow). -/
theorem test_sub :
    (after (regs 1 0x10 2 0x20) 0x8125).map (fun t => (t.reg 1, t.reg 0xF)) = some (0xF0, 0x00) ∧
    (after (regs 1 0x03 2 0x03) 0x8125).map (fun t => (t.reg 1, t.reg 0xF)) = some (0x00, 0x01) := by
  decide +kernel
/-- V-A17. -/
theorem test_sub_VF : (after (regs 1 0x05 0xF 0x03) 0x8F15).map (·.reg 0xF) = some 0xFE := by
  decide +kernel
/-- V-A18: `Vy` unused. -/
theorem test_shr :
    (after (regs 1 0x05 2 0xAA) 0x8126).map (fun t => (t.reg 1, t.reg 0xF, t.reg 2)) =
      some (0x02, 0x01, 0xAA) := by decide +kernel
/-- V-A20. -/
theorem test_shr_VF : (after (regs 1 0 0xF 0x07) 0x8F06).map (·.reg 0xF) = some 0x03 := by
  decide +kernel
/-- V-A21 and V-A22. -/
theorem test_subn :
    (after (regs 1 0x03 2 0x05) 0x8127).map (fun t => (t.reg 1, t.reg 0xF)) = some (0x02, 0x01) ∧
    (after (regs 1 0x20 2 0x10) 0x8127).map (fun t => (t.reg 1, t.reg 0xF)) = some (0xF0, 0x00) := by
  decide +kernel
/-- V-A23. -/
theorem test_shl :
    (after (regs 1 0x81 2 0xAA) 0x812E).map (fun t => (t.reg 1, t.reg 0xF, t.reg 2)) =
      some (0x02, 0x01, 0xAA) := by decide +kernel
/-- V-A25. -/
theorem test_shl_VF : (after (regs 1 0 0xF 0xC1) 0x8F0E).map (·.reg 0xF) = some 0x82 := by
  decide +kernel
/-- V-A26. -/
theorem test_rnd :
    (after (State.reset.presentRnd 0xA7) 0xC30F).map (fun t => (t.reg 3, t.rndInput)) =
      some (0x07, none) := by decide +kernel
/-- R183, R303: the byte that came with a step without `Cxkk` is gone; the next step has its own. -/
theorem test_rnd_of_its_own_step :
    (match (State.reset.withFetchWord 16 0x6105).stepWith 0x11 with
      | .next t => (after (t.presentRnd 0x22) 0xC0FF).map (·.reg 0)
      | .fault _ => none
      | .refused _ => none) = some 0x22 := by decide +kernel

/-! ### One step each: index and memory -/

/-- V-M1. -/
theorem test_ldI : (after State.reset 0xA300).map (·.i) = some 0x300 := by decide +kernel
/-- V-M4: no flag. -/
theorem test_addI :
    (after { regs 2 0xFF 0 0 with i := 0xFFF } 0xF21E).map (fun t => (t.i, t.reg 0xF)) =
      some (0x0FE, 0) := by decide +kernel
/-- V-M5. -/
theorem test_ldF :
    (after (regs 0 0x07 1 0) 0xF029).map (·.i) = some 0x023 ∧
    (after (regs 0 0xFF 1 0) 0xF029).map (·.i) = some 0x04B := by decide +kernel
/-- V-F33: 255 and 123. -/
theorem test_ldB :
    (after { regs 0 255 1 0 with i := 0x300 } 0xF033).map
      (fun t => (pairAt t 0x300, t.memRead 0x302, t.i)) = some ((2, 5), 5, 0x300) ∧
    (after { regs 0 123 1 0 with i := 0x300 } 0xF033).map
      (fun t => (pairAt t 0x300, t.memRead 0x302)) = some ((1, 2), 3) := by decide +kernel
/-- V-M8: wrap, then font discard. -/
theorem test_ldMemVx_wraps :
    (after { (regs 0 0xA1 1 0xA2).setReg 2 0xA3 with i := 0xFFE } 0xF255).map
      (fun t => (pairAt t 0xFFE, pairAt t 0x000)) = some ((0xA1, 0xA2), (0xF0, 0x90)) := by
  decide +kernel
/-- V-M10: the font's last two bytes stay, the two after it are written. -/
theorem test_ldMemVx_font_edge :
    (after { ((regs 0 0xA1 1 0xA2).setReg 2 0xA3).setReg 3 0xA4 with i := 0x04E } 0xF355).map
      (fun t => (pairAt t 0x04E, pairAt t 0x050)) = some ((0x80, 0x80), (0xA3, 0xA4)) := by
  decide +kernel
/-- V-M9: a load wraps into the font region. -/
theorem test_ldVxMem :
    (after { withBytes State.reset 0xFFE [0x11, 0x22] with i := 0xFFE } 0xF265).map
      (fun t => (t.reg 0, t.reg 1, t.reg 2, t.reg 3)) = some (0x11, 0x22, 0xF0, 0) := by
  decide +kernel

/-! ### One step each: display -/

/-- S4. -/
theorem test_cls :
    (after { State.reset with display := Vector.replicate 256 0xFF } 0x00E0).map (·.display) =
      some (Vector.replicate 256 0) := by decide +kernel
/-- V-D7: a collision in the second half only. -/
theorem test_drw_collides_in_second_half :
    (after { withBytes (regs 1 0x05 2 0) 0x300 [0xFF] with
        i := 0x300, display := State.reset.display.set 1 0x80 } 0xD121).map
      (fun t => (t.display.getD 0 0, t.display.getD 1 0, t.reg 0xF)) = some (0x07, 0x78, 1) := by
  decide +kernel
/-- V-D5: one pixel survives both clips. -/
theorem test_drw_clips :
    (after { withBytes (regs 1 0x3F 2 0x1F) 0x300 [0xFF] with i := 0x300 } 0xD12F).map
      (fun t => (t.display.getD 255 0, t.display.getD 0 0, t.display.getD 248 0, t.reg 0xF)) =
      some (0x01, 0, 0, 0) := by decide +kernel

/-! ### One step each: timers and keys -/

/-- V-T1: the tick comes first. -/
theorem test_ldVxDt :
    (after { State.reset with dt := 5 } 0xF307).map (fun t => (t.dt, t.reg 3)) = some (4, 4) := by
  decide +kernel
/-- V-T2. -/
theorem test_ldDtVx : (after (regs 0 3 1 0) 0xF015).map (·.dt) = some 3 := by decide +kernel
/-- V-T3. -/
theorem test_ldStVx :
    (after (regs 0 2 1 0) 0xF018).map (fun t => (t.st, t.soundRequest)) = some (2, false) := by
  decide +kernel
/-- V-T5. -/
theorem test_tick :
    (after { State.reset with st := 1 } 0x1200).map (fun t => (t.st, t.soundRequest, t.dt)) =
      some (0, true, 0) := by decide +kernel
/-- V-T8: the key index is the low digit. -/
theorem test_skp :
    (after { (regs 4 0x17 0 0).setKey 7 true with pc := 0x230 } 0xE49E).map (·.pc) = some 0x234 ∧
    (after { regs 4 0x07 0 0 with pc := 0x230 } 0xE49E).map (·.pc) = some 0x232 := by
  decide +kernel
/-- V-T7. -/
theorem test_sknp :
    (after { regs 4 0x07 0 0 with pc := 0x230 } 0xE4A1).map (·.pc) = some 0x234 ∧
    (after { (regs 4 0x07 0 0).setKey 7 true with pc := 0x230 } 0xE4A1).map (·.pc) = some 0x232 := by
  decide +kernel
/-- V-T9: no key down. -/
theorem test_ldVxK_waits :
    (after { State.reset with pc := 0x204, dt := 3 } 0xF30A).map (fun t => (t.pc, t.dt, t.reg 3)) =
      some (0x204, 2, 0) := by decide +kernel
/-- V-T10: the smallest key. -/
theorem test_ldVxK_resolves :
    (after { (State.reset.setKey 7 true).setKey 0xB true with pc := 0x204 } 0xF30A).map
      (fun t => (t.pc, t.reg 3)) = some (0x206, 7) := by decide +kernel

/-! ### Unrecognised words -/

/-- V-U6: the tick still happens. -/
theorem test_unrecognised :
    (after { State.reset with dt := 5, st := 1 } 0xF100).map
      (fun t => (t.pc, t.dt, t.st, t.soundRequest, t.report)) =
      some (0x202, 4, 0, true, .unimplementedOpcode 0xF100 0x200) := by decide +kernel

/-! ### Witnesses: for every statement with hypotheses, a state and operands that meet them -/

/-- A state unlike the reset state: mid-program, the stack in use, a timer about to end, a byte stored
just above the font and one at the top of memory. -/
def busy : State :=
  { regs 1 0xAB 0xF 0x05 with
    pc := 0x204, i := 0x04E, sp := 3, dt := 2, st := 2,
    stack := State.reset.stack.set 2 0xFFE, mem := [(0x050, 0x01), (0xFFF, 0x6A)] }

theorem busy_inv : busy.Inv defaultFont where
  pc_lt := by decide
  i_lt := by decide
  sp_le := by decide
  stack_lt := by decide +kernel
  mem_wf := by decide +kernel
  font_intact := by decide +kernel

/-- `busy` with a word at its `pc`. -/
def busyAt (w : Nat) : State := busy.withFetchWord 16 w

/-- Whether an outcome is a next state. -/
def isNext : Result → Bool
  | .next _ => true
  | .fault _ => false
  | .refused _ => false

theorem exists_next {r : Result} (h : isNext r = true) : ∃ t, r = .next t := by
  cases r with
  | next t => exact ⟨t, rfl⟩
  | fault f => cases h
  | refused f => cases h

/-- For StepKeepsInvariant, InvariantStateAlwaysSteps, HostMovesKeepInvariant and
SessionsRunAndKeepInvariant. -/
theorem witness_invariant_and_step : ∃ s t : State, s.Inv defaultFont ∧ step s = .next t := by
  obtain ⟨t, ht⟩ := exists_next (r := step busy) (by decide +kernel)
  exact ⟨busy, t, busy_inv, ht⟩

/-- For HostMovesKeepInvariant and LoadPlacesRom: the longest ROM (R302), in a session whose machine is
not the reset one. -/
theorem witness_load_succeeds : (⟨busy, true⟩ : Session).machine.Inv defaultFont ∧ busy.mem.wf = true ∧
    ∃ y, (⟨busy, true⟩ : Session).load (List.replicate 3584 0xFF) = .ok y :=
  ⟨busy_inv, busy_inv.mem_wf,
    _, Session.load_ok_iff.2 ⟨rfl, by rw [List.length_replicate]; decide, rfl⟩⟩

/-- For DecodeOfEncode: the words next to the two that are no `0nnn`. -/
theorem witness_wf : (Instr.sys 0x0E1).wf = true ∧ (Instr.sys 0x0EF).wf = true := by decide

/-- For EncodeOfDecode. -/
theorem witness_decoded : decodeWord 0xDF21 = .ok (.drw 0xF 0x2 0x1) := by decide

/-- For StepRunsFetchedInstruction: a word fetched across the top of memory, and at an odd `pc`. -/
theorem witness_step_runs :
    decodeWord (opcodeAt { busy with pc := 0xFFF }) = .ok (.ldImm 0xA 0xF0) ∧
    decodeWord (opcodeAt { busy with pc := 0x201 }) = .ok (.sys 0x000) := by decide +kernel

/-- For UnrecognisedWordIsReportedNoOp: one word of each family that has unrecognised words. -/
theorem witness_unrecognised :
    decodeWord (opcodeAt (busyAt 0x5AB1)) = .error .family5 ∧
    decodeWord (opcodeAt (busyAt 0x800F)) = .error .family8 ∧
    decodeWord (opcodeAt (busyAt 0x9ABF)) = .error .family9 ∧
    decodeWord (opcodeAt (busyAt 0xE19F)) = .error .familyE ∧
    decodeWord (opcodeAt (busyAt 0xF100)) = .error .familyF := by decide +kernel

/-- For TickIsOncePerStep and SoundTimerRaisesRequestAtItsEnd, at their boundary: two steps from
`st = 2` without a write of a timer. -/
theorem witness_two_steps_without_timer_writes :
    ∃ t, StepsWithout Instr.writesDt 2 (busyAt 0x1204) t ∧
      StepsWithout Instr.writesSt 2 (busyAt 0x1204) t := by
  obtain ⟨u, hu⟩ := exists_next (r := step (busyAt 0x1204)) (by decide +kernel)
  have hu' : u = { busyAt 0x1204 with pc := 0x204, dt := 1, st := 1, rndIndex := 1 } := by
    have : step (busyAt 0x1204) = .next { busyAt 0x1204 with pc := 0x204, dt := 1, st := 1, rndIndex := 1 } := by rfl
    exact Host.Outcome.next.inj (hu.symm.trans this)
  subst hu'
  have h2 : step { busyAt 0x1204 with pc := 0x204, dt := 1, st := 1, rndIndex := 1 } =
      .next { busyAt 0x1204 with pc := 0x204, dt := 0, st := 0, soundRequest := true, rndIndex := 2 } := by rfl
  exact ⟨_, ⟨_, by decide +kernel, hu, _, by decide +kernel, h2, rfl⟩,
    ⟨_, by decide +kernel, hu, _, by decide +kernel, h2, rfl⟩⟩

/-- For StepReportsExactly and StickyCopyRemembersReports: a step of every clause, at both sides of
each stack bound. -/
theorem witness_reporting_steps :
    isNext (step (busyAt 0x5AB1)) = true ∧ isNext (step (busyAt 0x6000)) = true ∧
    (busyAt 0x00EE).nextInstr = some .ret ∧ (busyAt 0x2300).nextInstr = some (.call 0x300) ∧
    isNext (step { busyAt 0x00EE with sp := 0 }) = true ∧
    isNext (step { busyAt 0x00EE with sp := 1 }) = true ∧
    isNext (step { busyAt 0x2300 with sp := 15 }) = true ∧
    isNext (step { busyAt 0x2300 with sp := 16 }) = true := by decide +kernel

/-- For OnlyRndDependsOnRandomInput. -/
theorem witness_no_random_draw :
    (busyAt 0xD125).nextInstr.any Instr.drawsRnd = false ∧ isNext (step (busyAt 0xD125)) = true := by
  decide +kernel

/-- For JumpsGoToTheirTarget. -/
theorem witness_sys_targets :
    (0x0DF : Addr).toNat ≠ 0x0E0 ∧ (0x0E1 : Addr).toNat ≠ 0x0EE ∧
    (0x0EF : Addr).toNat ≠ 0x0EE ∧ (0x0EF : Addr).toNat ≠ 0x0E0 := by decide

/-- For JumpsGoToTheirTarget, its self-loop. -/
theorem witness_self_loop :
    ({ busy with pc := 0x204 }.withFetchWord 16 0x1204).nextInstr = some (.jp 0x204) ∧
    ({ busy with pc := 0x204 }.withFetchWord 16 0x1204).pc.toNat = (0x204 : Addr).toNat := by
  decide +kernel

/-- For CallPushesReturnAddress and ReturnPopsReturnAddress, at the bounds of `sp`. -/
theorem witness_stack_depths :
    ({ busy with sp := 0 } : State).sp.toNat < 16 ∧ ({ busy with sp := 15 } : State).sp.toNat < 16 ∧
    0 < ({ busy with sp := 1 } : State).sp.toNat ∧ ({ busy with sp := 16 } : State).sp.toNat ≤ 16 := by
  decide +kernel

/-- For StackConditionsAreReportedNoOps. -/
theorem witness_stack_conditions :
    ({ busy with sp := 16 } : State).sp.toNat = 16 ∧ ({ busy with sp := 0 } : State).sp.toNat = 0 := by
  decide +kernel

/-- For OnlyImpossibleStackDepthsFault: the fault at 17 and 31, none at 16. -/
theorem witness_impossible_stack_depths :
    exec .ret { busy with sp := 31 } = .fault .noStackSlot ∧
    exec (.call 0x300) { busy with sp := 17 } = .fault .noStackSlot ∧
    isNext (exec (.call 0x300) { busy with sp := 16 }) = true ∧
    isNext (exec .ret { busy with sp := 16 }) = true := ⟨rfl, rfl, rfl, rfl⟩

/-- For ReturnResumesAfterCall, from the last slot: the called routine may have done anything else. -/
theorem witness_call_and_return : ∃ s t u v : State, s.sp.toNat < 16 ∧ s.pc.toNat < 4096 ∧
    exec (.call 0x300) s = .next t ∧ u.sp = t.sp ∧ u.stack = t.stack ∧ exec .ret u = .next v := by
  obtain ⟨t, ht⟩ := exists_next (r := exec (.call 0x300) { busy with sp := 15 }) (by decide +kernel)
  have hsp : t.sp = 16 := by injection ht with ht; subst ht; rfl
  have hn : isNext (exec .ret { t with dt := 9, pc := 0x333 }) = true := by
    simp only [exec, execRet_of_pos (s := { t with dt := 9, pc := 0x333 })
      (by simp [hsp]) (by simp [hsp]), isNext]
  obtain ⟨v, hv⟩ := exists_next hn
  exact ⟨{ busy with sp := 15 }, t, { t with dt := 9, pc := 0x333 }, v, by decide +kernel,
    by decide +kernel, ht, rfl, rfl, hv⟩

/-- For AddSetsCarry, SubtractionsSetNotBorrow and ShiftsUseVxAlone: the last destination whose flag
is not its result. -/
theorem witness_flag_destination : (0xE : Nibble) ≠ 0xF := by decide

/-- For RandomByteIsMasked: a byte presented, none, and a `Cxkk` about to run. -/
theorem witness_random_input :
    (busy.presentRnd 0xA7).rndInput = some 0xA7 ∧ busy.rndInput = none ∧
    (busyAt 0xC30F).nextInstr = some (.rnd 0x3 0x0F) := ⟨rfl, rfl, by decide +kernel⟩

/-- For BcdStoresThreeDigits and BlockStoreWritesRegisters: `I = 04E` has its first two addresses in
the font region and the third just above; `I = FFE` wraps into it. -/
theorem witness_font_edge :
    busy.mem.wf = true ∧ effAddr busy.i 1 < 80 ∧ 80 ≤ effAddr busy.i 2 ∧ effAddr 0xFFE 2 < 80 ∧
    80 ≤ effAddr 0xFFE 0 ∧ 80 ≤ effAddr 0xFFE 1 ∧ 0x300 % 4096 ≠ effAddr busy.i 2 := by
  decide +kernel

/-- For NextFetchSeesStore: V2 and V3 land at 050, where `pc` is. -/
theorem witness_self_modifying : ∃ t, ({ busy with pc := 0x050 } : State).mem.wf = true ∧
    exec (.ldMemVx 3) { busy with pc := 0x050 } = .next t ∧ (2 : Nibble).toNat + 1 ≤ (3 : Nibble).toNat ∧
    effAddr ({ busy with pc := 0x050 } : State).i (2 : Nibble).toNat = (0x050 : Word).toNat ∧
    80 ≤ (0x050 : Word).toNat ∧ (0x050 : Word).toNat + 1 < 4096 :=
  ⟨_, by decide +kernel, rfl, by decide, by decide +kernel, by decide, by decide⟩

/-- For DrawTwiceRestoresDisplay: coordinates in two registers other than `VF`, and twice in `VF`
where it already holds the flag the first draw leaves. -/
theorem witness_draw_twice :
    (∃ t u : State, exec (.drw 1 2 5) busy = .next t ∧ t.reg 1 = busy.reg 1 ∧
      t.reg 2 = busy.reg 2 ∧ exec (.drw 1 2 5) t = .next u) ∧
    (∃ t u : State, exec (.drw 0xF 0xF 5) State.reset = .next t ∧ t.reg 0xF = State.reset.reg 0xF ∧
      exec (.drw 0xF 0xF 5) t = .next u) :=
  ⟨⟨_, _, rfl, by decide +kernel, by decide +kernel, rfl⟩, ⟨_, _, rfl, by decide +kernel, rfl⟩⟩

/-- For TimerAccess, its clause through a step. -/
theorem witness_timer_read : (busyAt 0xF307).nextInstr = some (.ldVxDt 3) := by decide +kernel

/-- For KeySkipsFollowTheKey: the high digit of the register does not count. -/
theorem witness_key_index : (busy.reg 1).toNat % 16 = (0xB : Nibble).toNat := by decide +kernel

/-- For KeyWaitTakesSmallestKey: key 0 down, key F alone down, none down. -/
theorem witness_key_wait :
    ((busy.setKey 0 true).keyDown 0 = true ∧
      ∀ j : Nibble, j.toNat < (0 : Nibble).toNat → (busy.setKey 0 true).keyDown j = false) ∧
    ((busy.setKey 15 true).keyDown 0xF = true ∧
      ∀ j : Nibble, j.toNat < (0xF : Nibble).toNat → (busy.setKey 15 true).keyDown j = false) ∧
    (∀ k, busy.keyDown k = false) := by decide +kernel

/-- For WaitingStepChangesOnlyTimers, at the last even address. -/
theorem witness_waiting :
    ({ busy with pc := 0xFFE }.withFetchWord 16 0xF30A).pc.toNat < 4096 ∧
    ({ busy with pc := 0xFFE }.withFetchWord 16 0xF30A).nextInstr = some (.ldVxK 3) ∧
    (∀ k, ({ busy with pc := 0xFFE }.withFetchWord 16 0xF30A).keyDown k = false) := by
  decide +kernel

/-- For RegistersOutsideDestinationKeep: the register next above a block load, and one beside `VF`. -/
theorem witness_register_frame :
    isNext (exec (.ldVxMem 2) busy) = true ∧ (Instr.ldVxMem 2).mayWriteReg 3 = false ∧
    isNext (exec (.drw 1 2 5) busy) = true ∧ (Instr.drw 1 2 5).mayWriteReg 0xE = false := by
  decide +kernel

/-- For MemoryOutsideStoreKeeps: the byte just below and just above a stored block, and any byte for a
form that stores nothing. -/
theorem witness_memory_frame :
    isNext (exec (.ldB 1) busy) = true ∧
    (∀ k, k < (Instr.ldB 1).storeLen → 0x051 % 4096 ≠ effAddr busy.i k) ∧
    (∀ k, k < (Instr.ldB 1).storeLen → 0x04D % 4096 ≠ effAddr busy.i k) ∧
    isNext (exec (.ldVxMem 1) busy) = true ∧ (Instr.ldVxMem 1).storeLen = 0 := by decide +kernel

/-- For OtherStateChangesOnlyByItsInstructions: an instruction outside every named group. -/
theorem witness_other_state_frame :
    isNext (exec (.ldImm 1 7) busy) = true ∧ (Instr.ldImm 1 7).mayMovePc = false ∧
    (Instr.ldImm 1 7).writesI = false ∧ (Instr.ldImm 1 7).movesSp = false ∧
    (Instr.ldImm 1 7).isCall = false ∧ (Instr.ldImm 1 7).writesDt = false ∧
    (Instr.ldImm 1 7).writesSt = false ∧ (Instr.ldImm 1 7).writesDisplay = false ∧
    (0 : Nat) ≠ busy.sp.toNat := by decide +kernel

/-- For FontRegionNeverChanges: a step that stores over the region's last byte. -/
theorem witness_font_store :
    (busyAt 0xF155).nextInstr = some (.ldMemVx 1) ∧ isNext (step (busyAt 0xF155)) = true ∧
    (0x04F + 4096) % 4096 < 80 ∧ effAddr (busyAt 0xF155).i 1 = 0x04F := by decide +kernel

/-- For HostSetsKeysAndClearsSound: the first code with no key. -/
theorem witness_key_code : 16 ≤ 16 ∧ busy.setKey 16 true = busy := ⟨by decide, rfl⟩

/-- For LoadPlacesRom: the longest ROM, one byte more, and a session with no load to be had. -/
theorem witness_rom_lengths :
    (∃ rom : List Byte, rom.length = 3584) ∧ (∃ rom : List Byte, 3584 < rom.length) ∧
    session.fresh = true ∧ (⟨busy, false⟩ : Session).fresh = false :=
  ⟨⟨_, List.length_replicate (a := 0)⟩, ⟨List.replicate 3585 0, by rw [List.length_replicate]; decide⟩,
    rfl, rfl⟩

/-- For OneLoadBeforeTheFirstStep: a step, an empty ROM loaded, one byte too many, and events after a
load, another load among them. -/
theorem witness_loads : (∃ y, session.event (.step 0x00) = .next y) ∧
    (∃ y, session.load [] = .ok y) ∧
    session.load (List.replicate 3585 0) = .error .tooLarge ∧
    ∃ y, (⟨State.reset, false⟩ : Session).run [.host (.setKey 7 true), .load [0x12], .step 0xA7] =
      .next y := by
  obtain ⟨t, ht⟩ := exists_next (r := State.reset.stepWith 0x00) (by decide +kernel)
  obtain ⟨u, hu⟩ := exists_next (r := (State.reset.setKey 7 true).stepWith 0xA7) (by decide +kernel)
  refine ⟨⟨⟨t, false⟩, ?_⟩, ⟨_, rfl⟩, ?_, ⟨u, false⟩, ?_⟩
  · simp only [Session.event, session, Session.start]
    exact ht ▸ rfl
  · exact Session.load_tooLarge rfl (by rw [List.length_replicate]; decide)
  · simp only [Session.run, Session.event, State.hostMove, Session.load, Bool.false_eq_true, if_false,
      hu]

/-- For LoadedProgramStartsAtItsFirstWord: the shortest ROM that holds a word. -/
theorem witness_first_word : 2 ≤ [0x12, (0x34 : Byte)].length ∧
    ∃ y, session.load [0x12, 0x34] = .ok y := ⟨by decide, _, rfl⟩

end Sys2Proof.Tests
end

section
/-!
PROOFS. What an instruction may change, said once: the state it leaves is the old one but for the
parts the spec names for it (`10_state.md` R22 to R35, Table R35; `20_memory.md` R60).
-/

namespace Sys2Proof.Machine

/-- `s` with the parts that `i` may write taken from `t`. Which registers and which bytes of `mem`
those are is left open. -/
def State.changedBy (s : State) (i : Instr) (t : State) : State where
  v := t.v
  pc := if i.mayMovePc then t.pc else s.pc
  i := if i.writesI then t.i else s.i
  sp := if i.movesSp then t.sp else s.sp
  stack := if i.isCall then t.stack else s.stack
  dt := if i.writesDt then t.dt else s.dt
  st := if i.writesSt then t.st else s.st
  font := s.font
  mem := t.mem
  display := if i.writesDisplay then t.display else s.display
  keyboard := s.keyboard
  soundRequest := s.soundRequest
  report := if i.movesSp then t.report else s.report
  reportSeen := if i.movesSp then t.reportSeen else s.reportSeen
  rndInput := s.rndInput
  rndIndex := s.rndIndex

/-- A skip moves `pc` alone, so it is within the frame of every instruction that may move `pc`. -/
theorem State.skipIf_eq_changedBy (s : State) (c : Bool) {i : Instr} (hpc : i.mayMovePc = true) :
    s.skipIf c = s.changedBy i (s.skipIf c) := by
  rw [State.skipIf_eq]
  simp only [State.changedBy, hpc, if_true, ite_self]

/-- A block store writes `mem` alone, so it is within every frame. -/
theorem State.storeFrom_eq_changedBy (s : State) (k : Nat) (bytes : List Byte) (i : Instr) :
    s.storeFrom k bytes = s.changedBy i (s.storeFrom k bytes) := by
  rw [State.storeFrom_eq]
  simp only [State.changedBy, ite_self]

/-- A block load writes registers alone, so it is within every frame. -/
theorem State.setRegs_eq_changedBy (s : State) (k : Nat) (bytes : List Byte) (i : Instr) :
    s.setRegs k bytes = s.changedBy i (s.setRegs k bytes) := by
  rw [State.setRegs_eq]
  simp only [State.changedBy, ite_self]

/-- Every instruction stays within its frame. -/
theorem exec_eq_changedBy {i : Instr} {s t : State} (h : exec i s = .next t) :
    t = s.changedBy i t := by
  cases i with
  | ret =>
    obtain ⟨-, rfl⟩ | ⟨-, _, rfl⟩ := execRet_cases h
    · rfl
    · rfl
  | call nnn =>
    obtain ⟨-, rfl⟩ | ⟨-, _, rfl⟩ := execCall_cases h
    · rfl
    · rfl
  | ldVxK x =>
    obtain ⟨_, -, rfl⟩ | ⟨-, rfl⟩ := execLdVxK_cases h
    · rfl
    · rfl
  | seImm _ _ | sneImm _ _ | seReg _ _ | sneReg _ _ | skp _ | sknp _ =>
    cases h; exact State.skipIf_eq_changedBy _ _ rfl
  | ldB _ | ldMemVx _ => cases h; exact State.storeFrom_eq_changedBy _ _ _ _
  | ldVxMem _ => cases h; exact State.setRegs_eq_changedBy _ _ _ _
  | _ => cases h; rfl

/-- Only `CALL` writes a stack slot, and only the slot at `sp` (R28, R144). -/
theorem exec_stack_other {i : Instr} {s t : State} (h : exec i s = .next t) {k : Nat} (hk : k < 16)
    (hother : i.isCall = false ∨ k ≠ s.sp.toNat) : t.stack[k] = s.stack[k] := by
  cases i with
  | call nnn =>
    obtain ⟨-, rfl⟩ | ⟨-, hsp, rfl⟩ := execCall_cases h
    · rfl
    · have hne : k ≠ s.sp.toNat := hother.resolve_left (by simp [Instr.isCall])
      exact Vector.getElem_set_ne hsp hk hne.symm
  | _ => rw [exec_eq_changedBy h]; rfl

/-- Settles O48: each conjunct is one field of the frame, but for the slots `CALL` leaves alone. -/
theorem otherStateChangesOnlyByItsInstructions :
    Obligations.OtherStateChangesOnlyByItsInstructions := by
  unfold Obligations.OtherStateChangesOnlyByItsInstructions
  intro i s t h
  have hslots := fun k hk => exec_stack_other h (k := k) hk
  rw [exec_eq_changedBy h] at hslots ⊢
  refine ⟨fun hi => ?_, fun hi => ?_, fun hi => ?_, hslots, fun hi => ?_, fun hi => ?_,
    fun hi => ?_, rfl, rfl, fun hi => ?_, rfl, rfl, rfl⟩
  all_goals simp [State.changedBy, hi]

end Sys2Proof.Machine
end

section
/-!
PROOFS. The random input (`42_alu.md` R183, `00_scope.md` R12): an instruction other than `Cxkk`
commutes with a change of the input port and of the counter of free bytes.
-/

namespace Sys2Proof.Machine

/-- `s` with another `RND` byte, or none, and another free byte for its coming step. -/
def State.withRnd (s : State) (input : Option Byte) (index : Nat) : State :=
  { s with rndInput := input, rndIndex := index }

/-- What a meaning answers, with `f` done to the state where it answers one. -/
def mapNext (f : State → State) : Result → Result
  | .next s => .next (f s)
  | .fault r => .fault r
  | .refused r => .refused r

theorem State.skipIf_withRnd (s : State) (input : Option Byte) (index : Nat) (c : Bool) :
    (s.withRnd input index).skipIf c = (s.skipIf c).withRnd input index := by
  rw [State.skipIf_eq, State.skipIf_eq]
  rfl

theorem State.storeFrom_withRnd (s : State) (input : Option Byte) (index k : Nat)
    (bytes : List Byte) :
    (s.withRnd input index).storeFrom k bytes = (s.storeFrom k bytes).withRnd input index := by
  induction bytes generalizing s k with
  | nil => rfl
  | cons b rest ih => exact ih (s.memWrite (effAddr s.i k) b) (k + 1)

theorem State.setRegs_withRnd (s : State) (input : Option Byte) (index k : Nat)
    (bytes : List Byte) :
    (s.withRnd input index).setRegs k bytes = (s.setRegs k bytes).withRnd input index := by
  induction bytes generalizing s k with
  | nil => rfl
  | cons b rest ih => exact ih (s.setReg (BitVec.ofNat 4 k) b) (k + 1)

theorem State.push_withRnd (s : State) (input : Option Byte) (index : Nat) (a : Word) :
    (s.withRnd input index).push a = (s.push a).map (·.withRnd input index) := by
  unfold State.push
  rw [apply_dite (Option.map _)]
  rfl

theorem State.pop_withRnd (s : State) (input : Option Byte) (index : Nat) :
    (s.withRnd input index).pop = s.pop.map fun p => (p.1, p.2.withRnd input index) := by
  unfold State.pop
  rw [apply_dite (Option.map _)]
  rfl

theorem execRet_withRnd (s : State) (input : Option Byte) (index : Nat) :
    execRet (s.withRnd input index) = mapNext (·.withRnd input index) (execRet s) := by
  have hsp : (s.withRnd input index).sp = s.sp := rfl
  unfold execRet
  rw [State.pop_withRnd, hsp]
  split
  · rfl
  · cases s.pop <;> rfl

theorem execCall_withRnd (nnn : Addr) (s : State) (input : Option Byte) (index : Nat) :
    execCall nnn (s.withRnd input index) = mapNext (·.withRnd input index) (execCall nnn s) := by
  have hsp : (s.withRnd input index).sp = s.sp := rfl
  have hpc : (s.withRnd input index).pc = s.pc := rfl
  unfold execCall
  rw [hpc, State.push_withRnd, hsp]
  split
  · rfl
  · cases s.push s.pc <;> rfl

theorem execLdVxK_withRnd (x : Nibble) (s : State) (input : Option Byte) (index : Nat) :
    execLdVxK x (s.withRnd input index) = mapNext (·.withRnd input index) (execLdVxK x s) := by
  have hkey : (s.withRnd input index).lowestKey = s.lowestKey := rfl
  unfold execLdVxK
  rw [hkey]
  cases s.lowestKey <;> rfl

/-- An instruction other than `Cxkk` reads neither the `RND` byte nor the counter. -/
theorem exec_withRnd {i : Instr} (hi : i.drawsRnd = false) (s : State) (input : Option Byte)
    (index : Nat) :
    exec i (s.withRnd input index) = mapNext (·.withRnd input index) (exec i s) := by
  cases i with
  | rnd _ _ => cases hi
  | ret => exact execRet_withRnd s input index
  | call nnn => exact execCall_withRnd nnn s input index
  | ldVxK x => exact execLdVxK_withRnd x s input index
  | seImm _ _ | sneImm _ _ | seReg _ _ | sneReg _ _ | skp _ | sknp _ =>
    exact congrArg Host.Outcome.next (State.skipIf_withRnd s input index _)
  | ldB _ | ldMemVx _ =>
    exact congrArg Host.Outcome.next (State.storeFrom_withRnd s input index 0 _)
  | ldVxMem _ => exact congrArg Host.Outcome.next (State.setRegs_withRnd s input index 0 _)
  | _ => rfl

/-- The end of a step clears the port whatever it held, and counts on from its counter. -/
theorem endStep_mapNext_withRnd (r : Result) (input : Option Byte) (index : Nat) :
    endStep (mapNext (·.withRnd input index) r) =
      mapNext (·.withRnd none (index + 1)) (endStep r) := by
  cases r <;> rfl

/-- A step that does not execute `Cxkk` does the same with any `RND` byte, but for the counter. -/
theorem step_withRnd {s : State} (hs : s.nextInstr.any Instr.drawsRnd = false)
    (input : Option Byte) (index : Nat) :
    step (s.withRnd input index) = mapNext (·.withRnd none (index + 1)) (step s) := by
  cases hd : decodeWord s.fetchWord with
  | ok i =>
    have hi : i.drawsRnd = false := by simpa [nextInstr_some.2 hd] using hs
    calc step (s.withRnd input index)
        = endStep (exec i (s.enter.withRnd input index)) :=
          step_of_ok (s := s.withRnd input index) hd
      _ = endStep (mapNext (·.withRnd input index) (exec i s.enter)) := by rw [exec_withRnd hi]
      _ = mapNext (·.withRnd none (index + 1)) (endStep (exec i s.enter)) :=
          endStep_mapNext_withRnd _ _ _
      _ = mapNext (·.withRnd none (index + 1)) (step s) := by rw [step_of_ok hd]
  | error r =>
    rw [step_of_error hd]
    exact step_of_error (s := s.withRnd input index) hd

/-- After a step no `RND` byte is left and the counter is one further on. -/
theorem step_rndPort {s t : State} (h : step s = .next t) :
    t.rndInput = none ∧ t.rndIndex = s.rndIndex + 1 := by
  obtain ⟨i, u, -, hu, rfl⟩ | ⟨-, rfl⟩ := step_cases h
  · have hindex : u.rndIndex = (s.enter.changedBy i u).rndIndex :=
      congrArg State.rndIndex (exec_eq_changedBy hu)
    exact ⟨rfl, congrArg (· + 1) hindex⟩
  · exact ⟨rfl, rfl⟩

/-- Settles O18: a step that does not execute `Cxkk` commutes with a change of the `RND` port. -/
theorem onlyRndDependsOnRandomInput : Obligations.OnlyRndDependsOnRandomInput := by
  unfold Obligations.OnlyRndDependsOnRandomInput
  refine ⟨?_, ?_, fun s t h => step_rndPort h⟩
  · intro s b c hs
    exact (step_withRnd hs (some b) s.rndIndex).trans (step_withRnd hs (some c) s.rndIndex).symm
  · intro s t input k hs h
    have hstep := step_withRnd hs input k
    rw [h] at hstep
    calc step (s.withRnd input k)
        = .next (t.withRnd none (k + 1)) := hstep
      _ = .next { t with rndIndex := k + 1 } := by
          rw [State.withRnd, ← (step_rndPort h).1]

end Sys2Proof.Machine
end

section
/-!
PROOFS. The invariants of R37 outside a step (the host's moves, a presented `RND` byte, a load) and
the state after reset (Table R40).
-/

namespace Sys2Proof.Machine

/-- The invariants do not speak of the input ports and `sound_request`. -/
theorem State.Inv.withPorts {font : FontTable} {s : State} (h : s.Inv font)
    (keyboard : Vector Bool 16) (sound : Bool) (input : Option Byte) :
    { s with keyboard := keyboard, soundRequest := sound, rndInput := input : State }.Inv font :=
  ⟨h.pc_lt, h.i_lt, h.sp_le, h.stack_lt, h.mem_wf, h.font_intact⟩

/-- A ROM that fits lands above the font region and inside the 4096 bytes. -/
theorem State.Inv.withRom {font : FontTable} {s : State} (h : s.Inv font) {rom : List Byte}
    (hl : rom.length ≤ maxRom) :
    { s with mem := s.mem.putAll Config.programStart rom : State }.Inv font where
  pc_lt := h.pc_lt
  i_lt := h.i_lt
  sp_le := h.sp_le
  stack_lt := h.stack_lt
  mem_wf := Memory.wf_putAll (by decide) (Nat.add_le_add_left hl Config.programStart) h.mem_wf
  font_intact a ha := by
    have ha80 : a < 80 := ha
    rw [State.memRead_putAll s h.mem_wf hl (by omega), if_neg (by omega)]
    exact h.font_intact a ha

/-- Settles O5: moves and a presented byte touch only parts the invariants do not speak of; a load
only places a ROM that fits. -/
theorem hostMovesKeepInvariant : Obligations.HostMovesKeepInvariant := by
  unfold Obligations.HostMovesKeepInvariant
  refine fun font => ⟨?_, ?_, ?_⟩
  · intro s m h
    rw [State.hostMove_eq]
    exact h.withPorts _ _ _
  · intro s b h
    exact h.withPorts s.keyboard s.soundRequest (some b)
  · intro x y rom h hload
    obtain ⟨-, hl, rfl⟩ := Session.load_ok_iff.1 hload
    exact h.withRom hl

/-! ### Reset -/

theorem State.reg_resetWith (font : FontTable) (x : Nibble) : (State.resetWith font).reg x = 0 :=
  Vector.getElem_replicate x.isLt

theorem State.keyDown_resetWith (font : FontTable) (k : Nibble) :
    (State.resetWith font).keyDown k = false :=
  Vector.getElem_replicate k.isLt

/-- After reset the font region reads as the table the machine was built with (R41). -/
theorem State.memRead_resetWith_font (font : FontTable) {a : Nat} (h : a < 80) :
    (State.resetWith font).memRead a = font[a] := by
  have e : a % 4096 = a := Nat.mod_eq_of_lt (by omega)
  rw [State.memRead_font _ (e.symm ▸ h)]
  simp only [e]
  rfl

/-- After reset every byte above the font region reads as zero. -/
theorem State.memRead_resetWith_above (font : FontTable) {a : Nat} (h : 80 ≤ a) (ha : a < 4096) :
    (State.resetWith font).memRead a = 0 := by
  have e : a % 4096 = a := Nat.mod_eq_of_lt ha
  rw [State.memRead_mem _ (e.symm ▸ h)]
  rfl

/-- Settles O1: the scalar fields by the definition of the reset, the rest entry by entry. -/
theorem resetLeavesTableR40 : Obligations.ResetLeavesTableR40 := by
  unfold Obligations.ResetLeavesTableR40
  refine ⟨fun font => ⟨rfl, rfl, State.reg_resetWith font, rfl, ?_, rfl, rfl, ?_, ?_, ?_,
    State.keyDown_resetWith font, rfl⟩, rfl⟩
  · exact fun k h => Vector.getElem_replicate h
  · exact fun a h => State.memRead_resetWith_font font h
  · exact fun a h ha => State.memRead_resetWith_above font h ha
  · exact fun k h => Vector.getElem_replicate h

/-! ### The host's ports -/

theorem State.setKey_of_lt (s : State) {k : Nat} (pressed : Bool) (h : k < 16) :
    s.setKey k pressed = { s with keyboard := s.keyboard.set k pressed h } :=
  dif_pos h

/-- A code outside 0..15 has no effect (D25). -/
theorem State.setKey_of_ge (s : State) {k : Nat} (pressed : Bool) (h : 16 ≤ k) :
    s.setKey k pressed = s :=
  dif_neg (Nat.not_lt.2 h)

theorem State.keyDown_setKey (s : State) (k : Nat) (pressed : Bool) (j : Nibble) :
    (s.setKey k pressed).keyDown j = if j.toNat = k then pressed else s.keyDown j := by
  by_cases h : k < 16
  · rw [State.setKey_of_lt s pressed h]
    simp only [State.keyDown, Vector.getElem_set, eq_comm]
  · have hj : j.toNat ≠ k := by have := j.isLt; omega
    rw [State.setKey_of_ge s pressed (Nat.le_of_not_lt h), if_neg hj]

theorem State.setKey_eq (s : State) (k : Nat) (pressed : Bool) :
    s.setKey k pressed = { s with keyboard := (s.setKey k pressed).keyboard } := by
  by_cases h : k < 16
  · rw [State.setKey_of_lt s pressed h]
  · rw [State.setKey_of_ge s pressed (Nat.le_of_not_lt h)]

/-- Settles O50, by the lemmas of `set_key`, on both sides of its bound. -/
theorem hostSetsKeysAndClearsSound : Obligations.HostSetsKeysAndClearsSound := by
  unfold Obligations.HostSetsKeysAndClearsSound
  exact ⟨State.keyDown_setKey, State.setKey_eq, fun s k pressed h => s.setKey_of_ge pressed h,
    fun _ => rfl⟩

end Sys2Proof.Machine
end

section
/-!
PROOFS. The decoder is Table R97 (`30_encoding.md`): the rows of other families never select a word
(R94), and within its family the row a word selects is told by `n`, by `kk`, or by nothing more
(R95).
-/

namespace Sys2Proof

open Claims

/-! ### The fields of Table R91, as the statements and as the decoder read them -/

theorem xOf_eq_fieldX (w : Word) : xOf w = fieldX w := by
  apply BitVec.eq_of_toNat_eq
  rw [fieldX_toNat, xOf, BitVec.toNat_ofNat]

theorem yOf_eq_fieldY (w : Word) : yOf w = fieldY w := by
  apply BitVec.eq_of_toNat_eq
  rw [fieldY_toNat, yOf, BitVec.toNat_ofNat]

theorem nOf_eq_fieldN (w : Word) : nOf w = fieldN w := by
  apply BitVec.eq_of_toNat_eq
  rw [fieldN_toNat, nOf, BitVec.toNat_ofNat]

theorem kkOf_eq_fieldKK (w : Word) : kkOf w = fieldKK w := by
  apply BitVec.eq_of_toNat_eq
  rw [fieldKK_toNat, kkOf, BitVec.toNat_ofNat]

theorem nnnOf_eq_fieldNNN (w : Word) : nnnOf w = fieldNNN w := by
  apply BitVec.eq_of_toNat_eq
  rw [fieldNNN_toNat, nnnOf, BitVec.toNat_ofNat]

theorem packXKK_inj (c x c' x' : Nibble) (kk kk' : Byte) :
    packXKK c x kk = packXKK c' x' kk' ↔ c = c' ∧ x = x' ∧ kk = kk' := by
  constructor
  · intro h
    exact ⟨by simpa using congrArg fieldC h, by simpa using congrArg fieldX h,
      by simpa using congrArg fieldKK h⟩
  · rintro ⟨rfl, rfl, rfl⟩
    rfl

/-- The decoder's last family is what the fifteen others leave. -/
theorem nibble_eq_F_of_not_mem {c : Nibble}
    (h : c ∉ [0x0#4, 0x1#4, 0x2#4, 0x3#4, 0x4#4, 0x5#4, 0x6#4, 0x7#4, 0x8#4, 0x9#4, 0xA#4, 0xB#4,
      0xC#4, 0xD#4, 0xE#4]) : c = 0xF#4 := by
  revert c
  decide

/-! ### What the masks of the table keep of a word -/

theorem nibble_and_F (c : Nibble) : c &&& 0xF#4 = c := BitVec.and_allOnes

theorem fieldC_and (a b : Word) : fieldC (a &&& b) = fieldC a &&& fieldC b :=
  BitVec.extractLsb'_and

theorem and_F000 (w : Word) : w &&& 0xF000#16 = packNNN (fieldC w) 0x0#12 :=
  calc w &&& 0xF000#16
      = packNNN (fieldC w) (fieldNNN w) &&& packNNN 0xF#4 0x0#12 := by
        rw [packNNN_fields]; rfl
    _ = packNNN (fieldC w &&& 0xF#4) (fieldNNN w &&& 0x0#12) := append_and _ _ _ _
    _ = packNNN (fieldC w) 0x0#12 := by rw [nibble_and_F, BitVec.and_zero]

theorem and_F00F (w : Word) :
    w &&& 0xF00F#16 = packXYN (fieldC w) 0x0#4 0x0#4 (fieldN w) :=
  calc w &&& 0xF00F#16
      = packXYN (fieldC w) (fieldX w) (fieldY w) (fieldN w) &&&
          packXYN 0xF#4 0x0#4 0x0#4 0xF#4 := by
        rw [packXYN_fields]; rfl
    _ = packXYN (fieldC w) 0x0#4 0x0#4 (fieldN w) := by
        rw [packXYN_and, nibble_and_F, nibble_and_F, BitVec.and_zero, BitVec.and_zero]

theorem and_F0FF (w : Word) :
    w &&& 0xF0FF#16 = packXKK (fieldC w) 0x0#4 (fieldKK w) :=
  calc w &&& 0xF0FF#16
      = packXKK (fieldC w) (fieldX w) (fieldKK w) &&& packXKK 0xF#4 0x0#4 0xFF#8 := by
        rw [packXKK_fields]; rfl
    _ = packXKK (fieldC w &&& 0xF#4) (fieldX w &&& 0x0#4) (fieldKK w &&& 0xFF#8) :=
        (append_and _ _ _ _).trans (congrArg (· ++ _) (append_and _ _ _ _))
    _ = packXKK (fieldC w) 0x0#4 (fieldKK w) := by
        rw [nibble_and_F, BitVec.and_zero, show fieldKK w &&& 0xFF#8 = _ from BitVec.and_allOnes]

/-! ### The table, family by family -/

/-- The test of a row on a word (R97). -/
def Claims.Row.selects (r : Row) (w : Word) : Bool := decide (w &&& r.mask = r.pattern)

/-- What the first of the rows that selects the word builds (R94). -/
def decodeByTable (rows : List Row) (w : Word) : Option Instr :=
  (rows.find? fun r => r.selects w).map fun r => r.build w

/-- The rows of one family nibble, in the table's order. -/
def familyRows (c : Nibble) : List Row := tableR97.filter fun r => decide (fieldC r.pattern = c)

theorem mem_familyRows {r : Row} {c : Nibble} :
    r ∈ familyRows c ↔ r ∈ tableR97 ∧ fieldC r.pattern = c := by
  rw [familyRows, List.mem_filter, decide_eq_true_iff]

theorem fieldC_mask : ∀ r ∈ tableR97, fieldC r.mask = 0xF#4 := by decide

theorem pattern_and_mask : ∀ r ∈ tableR97, r.pattern &&& r.mask = r.pattern := by decide

theorem Claims.Row.selects_iff {r : Row} (hr : r ∈ tableR97) (w : Word) :
    r.selects w = true ↔ w &&& r.mask = r.pattern &&& r.mask := by
  rw [selects, decide_eq_true_iff, pattern_and_mask r hr]

/-- A row selects words of its own family only. -/
theorem Claims.Row.fieldC_of_selects {r : Row} {w : Word} (hr : r ∈ tableR97)
    (h : r.selects w = true) : fieldC r.pattern = fieldC w := by
  have hc := congrArg fieldC ((r.selects_iff hr w).1 h)
  simpa only [fieldC_and, fieldC_mask r hr, nibble_and_F] using hc.symm

theorem decodeByTable_familyRows (w : Word) :
    decodeByTable tableR97 w = decodeByTable (familyRows (fieldC w)) w := by
  unfold decodeByTable familyRows
  rw [List.find?_filter]
  congr 1
  apply List.find?_congr
  intro r hr
  rw [Bool.eq_iff_iff, decide_eq_true_iff, decide_eq_true_iff]
  exact ⟨fun h => ⟨r.fieldC_of_selects hr h, h⟩, And.right⟩

/-- When no row has the key, no row is found. -/
theorem find?_key_eq_none {α : Type} [DecidableEq α] {key : Row → α} {k : α} {rows : List Row}
    (hk : k ∉ rows.map key) : (rows.find? fun r => k = key r) = none := by
  rw [List.find?_eq_none]
  intro r hr h
  exact hk (List.mem_map.2 ⟨r, hr, (of_decide_eq_true h).symm⟩)

section
variable {w : Word} {c : Nibble} (hc : fieldC w = c)
include hc

/-- In the word's family any test that agrees with the rows' own finds the same row. -/
theorem decodeByTable_of_selects {p : Row → Bool} (h : ∀ r ∈ familyRows c, r.selects w = p r) :
    decodeByTable tableR97 w = ((familyRows c).find? p).map fun r => r.build w := by
  rw [decodeByTable_familyRows, hc, decodeByTable, List.find?_congr h]

/-- A family whose one row tests the family nibble alone. -/
theorem decodeByTable_of_mask_F000 {r : Row} (h : familyRows c = [r]) (hm : r.mask = 0xF000#16) :
    decodeByTable tableR97 w = some (r.build w) := by
  obtain ⟨hmem, hfam⟩ := mem_familyRows.1 (h ▸ List.mem_singleton_self r)
  have hsel : r.selects w = true := by
    rw [r.selects_iff hmem, hm, and_F000, and_F000, hc, hfam]
  rw [decodeByTable_familyRows, hc, h, decodeByTable, List.find?_singleton, if_pos hsel]
  rfl

/-- A family whose rows are told apart by `n`. -/
theorem decodeByTable_of_mask_F00F (h : ∀ r ∈ familyRows c, r.mask = 0xF00F#16) :
    decodeByTable tableR97 w =
      ((familyRows c).find? fun r => nOf w = nOf r.pattern).map fun r => r.build w := by
  refine decodeByTable_of_selects hc fun r hr => ?_
  obtain ⟨hmem, hfam⟩ := mem_familyRows.1 hr
  rw [Bool.eq_iff_iff, r.selects_iff hmem, h r hr, and_F00F, and_F00F, hc, hfam, packXYN_inj]
  simp [nOf_eq_fieldN]

/-- A family whose one row asks for `n` zero. -/
theorem decodeByTable_of_n_zero {r : Row} (h : familyRows c = [r]) (hm : r.mask = 0xF00F#16)
    (hn : nOf r.pattern = 0x0#4) :
    decodeByTable tableR97 w = if nOf w = 0x0#4 then some (r.build w) else none := by
  rw [decodeByTable_of_mask_F00F hc (by simp [h, hm]), h, List.find?_singleton, hn,
    apply_ite (Option.map _)]
  simp

/-- A family whose rows are told apart by `kk`. -/
theorem decodeByTable_of_mask_F0FF (h : ∀ r ∈ familyRows c, r.mask = 0xF0FF#16) :
    decodeByTable tableR97 w =
      ((familyRows c).find? fun r => kkOf w = kkOf r.pattern).map fun r => r.build w := by
  refine decodeByTable_of_selects hc fun r hr => ?_
  obtain ⟨hmem, hfam⟩ := mem_familyRows.1 hr
  rw [Bool.eq_iff_iff, r.selects_iff hmem, h r hr, and_F0FF, and_F0FF, hc, hfam, packXKK_inj]
  simp [kkOf_eq_fieldKK]

end

/-! ### Families of more than one row -/

theorem familyRows_0 : familyRows 0x0#4 =
    [⟨0xFFFF, 0x00E0, fun _ => .cls⟩, ⟨0xFFFF, 0x00EE, fun _ => .ret⟩,
      ⟨0xF000, 0x0000, fun w => .sys (nnnOf w)⟩] := rfl

/-- The two fixed words are found before `0nnn` (R94). -/
theorem decodeByTable_family0 {w : Word} (hc : fieldC w = 0x0#4) :
    decodeByTable tableR97 w = some (decodeFamily0 w) := by
  rw [decodeByTable_familyRows, hc]
  unfold decodeFamily0
  split_ifs with hcls hret
  · rw [hcls]; rfl
  · rw [hret]; rfl
  · have hfixed : w &&& 0xFFFF#16 = w := BitVec.and_allOnes
    have hsys : w &&& 0xF000#16 = 0x0000#16 := by rw [and_F000, hc]; rfl
    simp [decodeByTable, familyRows_0, Row.selects, hfixed, hcls, hret, hsys, nnnOf_eq_fieldNNN]

theorem decodeByTable_family8 {w : Word} (hc : fieldC w = 0x8#4) :
    decodeByTable tableR97 w = (decodeFamily8 (xOf w) (yOf w) (nOf w)).toOption := by
  rw [decodeByTable_of_mask_F00F hc (by decide)]
  unfold decodeFamily8
  split
  case h_10 =>
    have hn : nOf w ∉ [0x0#4, 0x1#4, 0x2#4, 0x3#4, 0x4#4, 0x5#4, 0x6#4, 0x7#4, 0xE#4] := by
      simp_all
    rw [find?_key_eq_none hn]
    rfl
  all_goals
    next hn =>
      rw [hn]
      rfl

theorem decodeByTable_familyE {w : Word} (hc : fieldC w = 0xE#4) :
    decodeByTable tableR97 w = (decodeFamilyE (xOf w) (kkOf w)).toOption := by
  rw [decodeByTable_of_mask_F0FF hc (by decide)]
  unfold decodeFamilyE
  split
  case h_3 =>
    have hkk : kkOf w ∉ [0x9E#8, 0xA1#8] := by simp_all
    rw [find?_key_eq_none hkk]
    rfl
  all_goals
    next hkk =>
      rw [hkk]
      rfl

theorem decodeByTable_familyF {w : Word} (hc : fieldC w = 0xF#4) :
    decodeByTable tableR97 w = (decodeFamilyF (xOf w) (kkOf w)).toOption := by
  rw [decodeByTable_of_mask_F0FF hc (by decide)]
  unfold decodeFamilyF
  split
  case h_10 =>
    have hkk : kkOf w ∉
        [0x07#8, 0x15#8, 0x18#8, 0x0A#8, 0x1E#8, 0x29#8, 0x33#8, 0x55#8, 0x65#8] := by
      simp_all
    rw [find?_key_eq_none hkk]
    rfl
  all_goals
    next hkk =>
      rw [hkk]
      rfl

/-! ### The whole decoder -/

theorem toOption_decodeWord (w : Word) : (decodeWord w).toOption = decodeByTable tableR97 w := by
  simp only [decodeWord, ← xOf_eq_fieldX, ← yOf_eq_fieldY, ← nOf_eq_fieldN, ← kkOf_eq_fieldKK,
    ← nnnOf_eq_fieldNNN]
  split
  case h_1 hc => exact (decodeByTable_family0 hc).symm
  case h_6 hc | h_10 hc =>
    rw [decodeByTable_of_n_zero hc rfl rfl rfl]
    split_ifs <;> rfl
  case h_9 hc => exact (decodeByTable_family8 hc).symm
  case h_15 hc => exact (decodeByTable_familyE hc).symm
  case h_16 =>
    have hc : fieldC w = 0xF#4 := nibble_eq_F_of_not_mem (by simp_all)
    exact (decodeByTable_familyF hc).symm
  all_goals next hc => exact (decodeByTable_of_mask_F000 hc rfl rfl).symm

/-- Settles O7, family by family: each row's mask keeps the family nibble, so that the table falls
apart into the families the decoder dispatches on. -/
theorem decoderIsTableR97 : Obligations.DecoderIsTableR97 := by
  unfold Obligations.DecoderIsTableR97
  exact toOption_decodeWord

end Sys2Proof
end

section
/-!
PROOFS. Decoding and encoding are inverse to each other on the recognised words and the well-formed
instructions (`30_encoding.md` Tables R91, R92, R97).
-/

namespace Sys2Proof

open Claims

/-! ### From the instruction to the word and back -/

theorem decodeWord_encode {i : Instr} (h : i.wf = true) : decodeWord (encode i) = .ok i := by
  cases i with
  | cls | ret => decide
  | sys nnn =>
    obtain ⟨hcls, hret⟩ : nnn ≠ 0x0E0#12 ∧ nnn ≠ 0x0EE#12 := by simpa [Instr.wf] using h
    simp [encode, decodeWord, decodeFamily0_packNNN, hcls, hret]
  | jp _ | call _ | ldI _ | jpV0 _ => simp [encode, decodeWord]
  | seImm _ _ | sneImm _ _ | ldImm _ _ | addImm _ _ | rnd _ _ => simp [encode, decodeWord]
  | seReg _ _ | sneReg _ _ | drw _ _ _ => simp [encode, decodeWord]
  | ldReg _ _ | orReg _ _ | andReg _ _ | xorReg _ _ | addReg _ _ | sub _ _ | shr _ _ | subn _ _
  | shl _ _ => simp [encode, decodeWord, decodeFamily8]
  | skp _ | sknp _ => simp [encode, decodeWord, decodeFamilyE]
  | ldVxDt _ | ldDtVx _ | ldStVx _ | ldVxK _ | addI _ | ldF _ | ldB _ | ldMemVx _ | ldVxMem _ =>
    simp [encode, decodeWord, decodeFamilyF]

/-- On a stream the decoder reads the word of the first two bytes (R63) and leaves the others. -/
theorem decode_bytesOfWord (w : Word) (rest : List Byte) :
    decode (bytesOfWord w ++ rest) = (decodeWord w).map (·, rest) := by
  simp only [bytesOfWord, List.cons_append, List.nil_append, decode, wordOfBytes_bytes]
  cases decodeWord w <;> rfl

/-- Settles O8: the fields of the packed word are the operands, family by family. -/
theorem decodeOfEncode : Obligations.DecodeOfEncode := by
  unfold Obligations.DecodeOfEncode
  intro i h
  refine ⟨decodeWord_encode h, fun rest => ?_⟩
  rw [encodeBytes, decode_bytesOfWord, decodeWord_encode h]
  rfl

/-! ### From the word to the instruction and back -/

section
variable {w : Word} {c : Nibble} (hc : fieldC w = c)
include hc

theorem packNNN_of_fieldC : packNNN c (fieldNNN w) = w := hc ▸ packNNN_fields w

theorem packXKK_of_fieldC : packXKK c (fieldX w) (fieldKK w) = w := hc ▸ packXKK_fields w

theorem packXYN_of_fieldC : packXYN c (fieldX w) (fieldY w) (fieldN w) = w :=
  hc ▸ packXYN_fields w

end

theorem encode_decodeFamily0 {w : Word} (hc : fieldC w = 0x0#4) :
    encode (decodeFamily0 w) = w ∧ (decodeFamily0 w).wf = true := by
  have hw : packNNN 0x0#4 (fieldNNN w) = w := packNNN_of_fieldC hc
  unfold decodeFamily0
  split_ifs with hcls hret
  · exact ⟨hcls.symm, rfl⟩
  · exact ⟨hret.symm, rfl⟩
  · refine ⟨hw, ?_⟩
    rw [Instr.wf, Bool.and_eq_true, bne_iff_ne, bne_iff_ne]
    constructor <;> intro hnnn <;> rw [hnnn] at hw
    · exact hcls hw.symm
    · exact hret hw.symm

theorem encode_of_decodeFamily8 {x y n : Nibble} {i : Instr} (h : decodeFamily8 x y n = .ok i) :
    encode i = packXYN 0x8#4 x y n ∧ i.wf = true := by
  unfold decodeFamily8 at h
  split at h <;> cases h <;> exact ⟨rfl, rfl⟩

theorem encode_of_decodeFamilyE {x : Nibble} {kk : Byte} {i : Instr}
    (h : decodeFamilyE x kk = .ok i) : encode i = packXKK 0xE#4 x kk ∧ i.wf = true := by
  unfold decodeFamilyE at h
  split at h <;> cases h <;> exact ⟨rfl, rfl⟩

theorem encode_of_decodeFamilyF {x : Nibble} {kk : Byte} {i : Instr}
    (h : decodeFamilyF x kk = .ok i) : encode i = packXKK 0xF#4 x kk ∧ i.wf = true := by
  unfold decodeFamilyF at h
  split at h <;> cases h <;> exact ⟨rfl, rfl⟩

theorem encode_of_decodeWord {w : Word} {i : Instr} (h : decodeWord w = .ok i) :
    encode i = w ∧ i.wf = true := by
  simp only [decodeWord] at h
  split at h
  case h_1 hc =>
    cases h
    exact encode_decodeFamily0 hc
  case h_2 hc | h_3 hc | h_11 hc | h_12 hc =>
    cases h
    exact ⟨packNNN_of_fieldC hc, rfl⟩
  case h_4 hc | h_5 hc | h_7 hc | h_8 hc | h_13 hc =>
    cases h
    exact ⟨packXKK_of_fieldC hc, rfl⟩
  case h_6 hc | h_10 hc =>
    split_ifs at h with hn
    cases h
    have hw := packXYN_of_fieldC hc
    rw [hn] at hw
    exact ⟨hw, rfl⟩
  case h_9 hc =>
    rw [← packXYN_of_fieldC hc]
    exact encode_of_decodeFamily8 h
  case h_14 hc =>
    cases h
    exact ⟨packXYN_of_fieldC hc, rfl⟩
  case h_15 hc =>
    rw [← packXKK_of_fieldC hc]
    exact encode_of_decodeFamilyE h
  case h_16 =>
    have hc : fieldC w = 0xF#4 := nibble_eq_F_of_not_mem (by simp_all)
    rw [← packXKK_of_fieldC hc]
    exact encode_of_decodeFamilyF h

/-- Settles O9: what the decoder builds packs the fields of the word it read. -/
theorem encodeOfDecode : Obligations.EncodeOfDecode := by
  unfold Obligations.EncodeOfDecode
  exact fun w i => encode_of_decodeWord

/-- Settles O11: closed words, which the decoder evaluates. -/
theorem writtenWordsDecode : Obligations.WrittenWordsDecode := by
  unfold Obligations.WrittenWordsDecode Encodes
  decide

end Sys2Proof
end

section
/-!
PROOFS. Control transfer (`41_control_flow.md`): the jumps and the compare skips. The forms in which
the obligations write a word, a 12-bit sum and the state after the fetch are tied to the model's own
first.
-/

namespace Sys2Proof

open Claims

/-- A number is the word of a well-formed instruction when it is the value of the encoded word. -/
theorem encodes_of_encode_toNat {i : Instr} {w : Nat} (hwf : i.wf = true)
    (h : (encode i).toNat = w) : Encodes w i := by
  subst h
  rw [Encodes, BitVec.ofNat_toNat, BitVec.setWidth_eq]
  exact decodeWord_encode hwf

/-- The word of a format `NNN` instruction, as a sum of its fields (Table R92). -/
theorem encodes_of_packNNN (c : Nibble) {i : Instr} {nnn : Addr} (hwf : i.wf = true)
    (h : encode i = packNNN c nnn) : Encodes (c.toNat * 0x1000 + nnn.toNat) i :=
  encodes_of_encode_toNat hwf (by rw [h, packNNN_toNat])

/-- The word of a format `XKK` instruction. -/
theorem encodes_of_packXKK (c : Nibble) {i : Instr} {x : Nibble} {kk : Byte} (hwf : i.wf = true)
    (h : encode i = packXKK c x kk) :
    Encodes (c.toNat * 0x1000 + 0x100 * x.toNat + kk.toNat) i :=
  encodes_of_encode_toNat hwf (by rw [h, packXKK_toNat, Nat.mul_comm x.toNat])

/-- The word of a format `XY` instruction whose low digit is zero. -/
theorem encodes_of_packXY0 (c : Nibble) {i : Instr} {x y : Nibble} (hwf : i.wf = true)
    (h : encode i = packXYN c x y 0x0#4) :
    Encodes (c.toNat * 0x1000 + 0x100 * x.toNat + 0x10 * y.toNat) i :=
  encodes_of_encode_toNat hwf (by
    rw [h, packXYN_toNat, BitVec.toNat_ofNat]
    omega)

end Sys2Proof

namespace Sys2Proof.Machine

open Claims

/-! ### Addresses and the state after the fetch -/

theorem mask12_add_ofNat (a : Word) (k : Nat) : mask12 (a + BitVec.ofNat 16 k) = plus12 a k := by
  apply BitVec.eq_of_toNat_eq
  rw [mask12_toNat, plus12, BitVec.toNat_add, BitVec.toNat_ofNat, BitVec.toNat_ofNat]
  omega

/-- The advance of the fetch and of a skip (R25). -/
theorem mask12_add_two (a : Word) : mask12 (a + 2) = plus12 a 2 := mask12_add_ofNat a 2

theorem addrWord_eq_ofNat (nnn : Addr) : addrWord nnn = BitVec.ofNat 16 nnn.toNat := by
  apply BitVec.eq_of_toNat_eq
  rw [addrWord_toNat, BitVec.toNat_ofNat]
  omega

theorem countDown_eq_ofNat (t : Byte) : countDown t = BitVec.ofNat 8 (t.toNat - 1) := by
  rw [← countDown_toNat, BitVec.ofNat_toNat, BitVec.setWidth_eq]

/-- The state in which an instruction acts is the one the obligations write out (R120, R250). -/
theorem State.enter_eq_afterFetch (s : State) : s.enter = afterFetch s := by
  have hsound : (s.st == 1) = decide (s.st.toNat = 1) := by
    rw [Bool.eq_iff_iff, beq_iff_eq, decide_eq_true_iff, ← BitVec.toNat_inj]
    rfl
  rw [State.enter_eq, mask12_add_two, hsound, countDown_eq_ofNat, countDown_eq_ofNat, afterFetch]

/-- The next instruction depends on `pc` and on what memory holds alone (R122). -/
theorem State.nextInstr_congr {s t : State} (hpc : t.pc = s.pc) (hfont : t.font = s.font)
    (hmem : t.mem = s.mem) : t.nextInstr = s.nextInstr := by
  simp only [State.nextInstr, State.fetchWord, State.memRead_congr hfont hmem, hpc]

/-! ### Jumps -/

theorem State.setPc_addrWord (s : State) (nnn : Addr) :
    s.setPc (addrWord nnn) = { s with pc := BitVec.ofNat 16 nnn.toNat } := by
  rw [State.setPc, mask12_addrWord, addrWord_eq_ofNat]

theorem exec_jp (nnn : Addr) (s : State) :
    exec (.jp nnn) s = .next { s with pc := BitVec.ofNat 16 nnn.toNat } :=
  congrArg Host.Outcome.next (s.setPc_addrWord nnn)

theorem exec_sys (nnn : Addr) (s : State) :
    exec (.sys nnn) s = .next { s with pc := BitVec.ofNat 16 nnn.toNat } :=
  congrArg Host.Outcome.next (s.setPc_addrWord nnn)

/-- A step of a `1nnn` at its own address undoes the fetch advance of `pc`, and no more (R143). -/
theorem step_of_jp_self {nnn : Addr} {s : State} (h : s.nextInstr = some (.jp nnn))
    (hpc : s.pc.toNat = nnn.toNat) : step s = .next { stepEnd (afterFetch s) with pc := s.pc } := by
  have hback : BitVec.ofNat 16 nnn.toNat = s.pc := by
    rw [← hpc, BitVec.ofNat_toNat, BitVec.setWidth_eq]
  calc step s
      = endStep (exec (.jp nnn) s.enter) := step_of_ok (nextInstr_some.1 h)
    _ = endStep (.next { afterFetch s with pc := s.pc }) := by
        rw [exec_jp, hback, State.enter_eq_afterFetch]
    _ = .next { stepEnd (afterFetch s) with pc := s.pc } := rfl

/-- The words of `00E0` and `00EE` alone are left out (R94, R142). -/
theorem encodes_sys {nnn : Addr} (hcls : nnn.toNat ≠ 0x0E0) (hret : nnn.toNat ≠ 0x0EE) :
    Encodes nnn.toNat (.sys nnn) := by
  have hwf : (Instr.sys nnn).wf = true := by
    rw [Instr.wf, Bool.and_eq_true, bne_iff_ne, bne_iff_ne]
    exact ⟨fun h => hcls (congrArg BitVec.toNat h), fun h => hret (congrArg BitVec.toNat h)⟩
  exact Nat.zero_add nnn.toNat ▸ encodes_of_packNNN 0x0#4 hwf rfl

/-- Settles O19: a jump overwrites `pc` whole, so that at its own address it undoes the fetch
advance; neither the tick nor the end of the step touches what the next fetch reads. -/
theorem jumpsGoToTheirTarget : Obligations.JumpsGoToTheirTarget := by
  unfold Obligations.JumpsGoToTheirTarget
  intro nnn s
  refine ⟨exec_jp nnn s, encodes_of_packNNN 0x1#4 rfl rfl,
    fun h hpc => ⟨step_of_jp_self h hpc, ?_⟩, exec_sys nnn s, encodes_sys⟩
  exact (State.nextInstr_congr rfl rfl rfl).trans h

/-! ### Compare skips -/

/-- A skip when a condition holds (R25). -/
theorem State.skipIf_eq_plus12 (s : State) (c : Bool) :
    s.skipIf c = { s with pc := if c then plus12 s.pc 2 else s.pc } := by
  rw [State.skipIf_eq, mask12_add_two]

/-- A skip when two bytes are equal. -/
theorem State.skipIf_beq (s : State) (a b : Byte) :
    s.skipIf (a == b) = { s with pc := if a = b then plus12 s.pc 2 else s.pc } := by
  simp only [State.skipIf_eq_plus12, beq_iff_eq]

/-- A skip when two bytes differ. -/
theorem State.skipIf_bne (s : State) (a b : Byte) :
    s.skipIf (a != b) = { s with pc := if a = b then s.pc else plus12 s.pc 2 } := by
  simp only [State.skipIf_eq_plus12, bne_iff_ne, ne_eq, ite_not]

/-- Settles O21: each compare skip is `skipIf` of one comparison, equal or different. -/
theorem skipsFollowTheirComparison : Obligations.SkipsFollowTheirComparison := by
  unfold Obligations.SkipsFollowTheirComparison
  intro x y kk s
  exact ⟨congrArg Host.Outcome.next (s.skipIf_beq _ _),
    congrArg Host.Outcome.next (s.skipIf_bne _ _),
    congrArg Host.Outcome.next (s.skipIf_beq _ _),
    congrArg Host.Outcome.next (s.skipIf_bne _ _),
    encodes_of_packXKK 0x3#4 rfl rfl, encodes_of_packXKK 0x4#4 rfl rfl,
    encodes_of_packXY0 0x5#4 rfl rfl, encodes_of_packXY0 0x9#4 rfl rfl⟩

end Sys2Proof.Machine
end

section
/-!
PROOFS. Loads and arithmetic (`42_alu.md`): the instructions that write one register and no flag.
-/

namespace Sys2Proof.Machine

open Claims

/-- A register write gives the register its byte and leaves every other register and all other state
as it was; `VF` is no exception (R172 to R174). -/
theorem State.setReg_value_and_frame (s : State) (x : Nibble) (b : Byte) :
    (s.setReg x b).reg x = b ∧ (∀ z, z ≠ x → (s.setReg x b).reg z = s.reg z) ∧
      s.setReg x b = { s with v := (s.setReg x b).v } :=
  ⟨s.reg_setReg_same x b, fun _ hz => s.reg_setReg_other b hz, rfl⟩

theorem exec_ldImm (x : Nibble) (kk : Byte) (s : State) :
    exec (.ldImm x kk) s = .next (s.setReg x kk) := rfl

theorem exec_addImm (x : Nibble) (kk : Byte) (s : State) :
    exec (.addImm x kk) s = .next (s.setReg x (s.reg x + kk)) := rfl

theorem exec_ldReg (x y : Nibble) (s : State) :
    exec (.ldReg x y) s = .next (s.setReg x (s.reg y)) := rfl

/-- Settles O27: each of the three is one register write; the sum of two bytes wraps at 256. -/
theorem loadsAndAddImmediate : Obligations.LoadsAndAddImmediate := by
  unfold Obligations.LoadsAndAddImmediate
  intro x y kk s
  obtain ⟨hsum, hframe⟩ := s.setReg_value_and_frame x (s.reg x + kk)
  have hwrap : ((s.setReg x (s.reg x + kk)).reg x).toNat
      = ((s.reg x).toNat + kk.toNat) % 256 := by
    rw [hsum, BitVec.toNat_add]
  exact ⟨⟨_, exec_ldImm x kk s, s.setReg_value_and_frame x kk⟩,
    ⟨_, exec_addImm x kk s, hwrap, hframe⟩,
    ⟨_, exec_ldReg x y s, s.setReg_value_and_frame x (s.reg y)⟩,
    encodes_of_packXKK 0x6#4 rfl rfl, encodes_of_packXKK 0x7#4 rfl rfl,
    encodes_of_packXY0 0x8#4 rfl rfl⟩

end Sys2Proof.Machine
end

section
/-!
PROOFS. Index and memory (`43_index_memory.md`): the two loads of `I`.
-/

namespace Sys2Proof

open Claims

/-- The word of a format `X` instruction, whose low byte `kk` is fixed (Table R92). -/
theorem encodes_of_packX (c : Nibble) (kk : Byte) {i : Instr} {x : Nibble} (hwf : i.wf = true)
    (h : encode i = packXKK c x kk) :
    Encodes (c.toNat * 0x1000 + kk.toNat + 0x100 * x.toNat) i := by
  rw [Nat.add_right_comm]
  exact encodes_of_packXKK c hwf h

end Sys2Proof

namespace Sys2Proof.Machine

open Claims

theorem State.setI_addrWord (s : State) (nnn : Addr) :
    s.setI (addrWord nnn) = { s with i := BitVec.ofNat 16 nnn.toNat } := by
  rw [State.setI, mask12_addrWord, addrWord_eq_ofNat]

/-- A glyph's address is below 4096, so that `I` takes it whole (R202). -/
theorem State.setI_glyphAddr (s : State) (b : Byte) :
    s.setI (glyphAddr b) = { s with i := BitVec.ofNat 16 (b.toNat % 16 * 5) } := by
  rw [State.setI, mask12_glyphAddr, glyphAddr]

theorem exec_ldI (nnn : Addr) (s : State) :
    exec (.ldI nnn) s = .next { s with i := BitVec.ofNat 16 nnn.toNat } :=
  congrArg Host.Outcome.next (s.setI_addrWord nnn)

theorem exec_ldF (x : Nibble) (s : State) :
    exec (.ldF x) s = .next { s with i := BitVec.ofNat 16 ((s.reg x).toNat % 16 * 5) } :=
  congrArg Host.Outcome.next (s.setI_glyphAddr (s.reg x))

/-- Settles O33: each of the two is one write of `I`, whose mask leaves a field `nnn` and a glyph's
address as they are. -/
theorem indexLoads : Obligations.IndexLoads := by
  unfold Obligations.IndexLoads
  intro x nnn s
  exact ⟨exec_ldI nnn s, exec_ldF x s, encodes_of_packNNN 0xA#4 rfl rfl,
    encodes_of_packX 0xF#4 0x29#8 rfl rfl⟩

end Sys2Proof.Machine
end

section
/-!
PROOFS. Display (`44_display.md`): the clear.
-/

namespace Sys2Proof.Machine

open Claims

/-- `00E0` as one write of the whole display (R220). -/
theorem exec_cls (s : State) :
    exec .cls s = .next { s with display := Vector.replicate 256 0 } := rfl

/-- Settles O39: the clear is one write of the display, every byte of which is the replicated 0. -/
theorem clearMakesDisplayDark : Obligations.ClearMakesDisplayDark := by
  unfold Obligations.ClearMakesDisplayDark
  have hword : Encodes 0x00E0 .cls := encodes_of_encode_toNat rfl rfl
  exact ⟨hword, fun s => ⟨_, exec_cls s, fun _ hk => Vector.getElem_replicate hk, rfl⟩⟩

end Sys2Proof.Machine
end

section
/-!
PROOFS. Timers (`45_timers_keyboard.md`): the tick of every step, the count of `dt` over many steps,
and the three instructions that read or write a timer.
-/

namespace Sys2Proof.Machine

open Claims

/-! ### The tick -/

/-- After the tick a step touches a timer only by its write, and `sound_request` never (R250). -/
theorem step_keeps_tick {s t : State} (h : step s = .next t) :
    (s.nextInstr.any Instr.writesDt = false → t.dt = s.enter.dt) ∧
    (s.nextInstr.any Instr.writesSt = false → t.st = s.enter.st) ∧
    t.soundRequest = s.enter.soundRequest := by
  obtain ⟨i, u, hi, hu, rfl⟩ | ⟨-, rfl⟩ := step_cases h
  · rw [hi, exec_eq_changedBy hu]
    exact ⟨fun hdt => if_neg (Bool.eq_false_iff.1 hdt),
      fun hst => if_neg (Bool.eq_false_iff.1 hst), rfl⟩
  · exact ⟨fun _ => rfl, fun _ => rfl, rfl⟩

theorem step_dt_toNat {s t : State} (h : step s = .next t)
    (hs : s.nextInstr.any Instr.writesDt = false) : t.dt.toNat = s.dt.toNat - 1 := by
  obtain ⟨hdt, -, -⟩ := step_keeps_tick h
  rw [hdt hs, State.enter_dt, countDown_toNat]

theorem step_st_toNat {s t : State} (h : step s = .next t)
    (hs : s.nextInstr.any Instr.writesSt = false) : t.st.toNat = s.st.toNat - 1 := by
  obtain ⟨-, hst, -⟩ := step_keeps_tick h
  rw [hst hs, State.enter_st, countDown_toNat]

theorem step_soundRequest_iff {s t : State} (h : step s = .next t) :
    t.soundRequest = true ↔ s.soundRequest = true ∨ s.st.toNat = 1 := by
  obtain ⟨-, -, hsound⟩ := step_keeps_tick h
  rw [hsound, State.enter_eq_afterFetch, afterFetch, Bool.or_eq_true, decide_eq_true_iff]

/-- The truncated subtraction says that `dt`, once at 0, stays there. -/
theorem stepsWithout_dt_toNat {k : Nat} {s t : State} (h : StepsWithout Instr.writesDt k s t) :
    t.dt.toNat = s.dt.toNat - k := by
  induction k generalizing s with
  | zero => rw [show t = s from h, Nat.sub_zero]
  | succ k ih =>
    obtain ⟨u, hs, hstep, hrest⟩ := h
    rw [ih hrest, step_dt_toNat hstep hs, Nat.sub_sub, Nat.add_comm]

/-- Settles O14: no phase after the tick touches what it wrote but the write of a timer; over many
steps by induction on their number. -/
theorem tickIsOncePerStep : Obligations.TickIsOncePerStep := by
  unfold Obligations.TickIsOncePerStep
  exact ⟨fun s t h => ⟨step_dt_toNat h, step_st_toNat h, step_soundRequest_iff h⟩,
    fun k s t => stepsWithout_dt_toNat⟩

/-! ### Timer access -/

theorem exec_ldVxDt (x : Nibble) (s : State) : exec (.ldVxDt x) s = .next (s.setReg x s.dt) := rfl

theorem exec_ldDtVx (x : Nibble) (s : State) :
    exec (.ldDtVx x) s = .next { s with dt := s.reg x } := rfl

theorem exec_ldStVx (x : Nibble) (s : State) :
    exec (.ldStVx x) s = .next { s with st := s.reg x } := rfl

/-- A step of `Fx07` reads the timer that its own tick left (R251). -/
theorem step_of_ldVxDt {x : Nibble} {s : State} (h : s.nextInstr = some (.ldVxDt x)) :
    step s = .next (s.enter.setReg x s.enter.dt).dropRnd := by
  rw [step_of_ok (nextInstr_some.1 h), exec_ldVxDt, endStep]

/-- Settles O42: each of the three is one write; through a step, what `Fx07` reads is the ticked
timer. -/
theorem timerAccess : Obligations.TimerAccess := by
  unfold Obligations.TimerAccess
  intro x s
  refine ⟨⟨_, exec_ldVxDt x s, s.setReg_value_and_frame x s.dt⟩, exec_ldDtVx x s, exec_ldStVx x s,
    fun h => ⟨_, step_of_ldVxDt h, ?_, ?_⟩, encodes_of_packX 0xF#4 0x07#8 rfl rfl,
    encodes_of_packX 0xF#4 0x15#8 rfl rfl, encodes_of_packX 0xF#4 0x18#8 rfl rfl⟩
  · rw [State.reg_dropRnd, State.reg_setReg_same, State.enter_dt, countDown_toNat]
  · exact countDown_toNat s.dt

end Sys2Proof.Machine
end

section
/-!
PROOFS. Reports (`60_exceptions.md`, Table R270): the unrecognised word and the two stack conditions
as no-ops that only report, and what a step reports. The word and the address that a report names are
tied to the forms in which the obligations write them first.
-/

namespace Sys2Proof.Machine

open Claims

/-! ### What a report names -/

/-- The word of the fetch is the two bytes at `pc`, the first one high (R63, R122). -/
theorem State.fetchWord_eq_opcodeAt (s : State) : s.fetchWord = opcodeAt s := by
  rw [opcodeAt, Nat.mul_comm, ← wordOfBytes_toNat, BitVec.ofNat_toNat, BitVec.setWidth_eq,
    State.fetchWord]

/-- The address of the instruction is two below the advanced `pc`, modulo 4096 (R125). -/
theorem State.instrAddr_eq_addr12 (s : State) : s.instrAddr = addr12 s.pc 4094 := by
  apply BitVec.eq_of_toNat_eq
  rw [State.instrAddr, addr12, BitVec.toNat_setWidth, BitVec.toNat_sub, BitVec.toNat_ofNat,
    show (2 : Word).toNat = 2 from rfl]
  omega

/-- After the fetch advance it is the address that `pc` had on entry, at the top of memory too. -/
theorem State.instrAddr_enter (s : State) : s.enter.instrAddr = addr12 s.pc 0 := by
  have hpc : s.enter.pc = plus12 s.pc 2 := mask12_add_two s.pc
  apply BitVec.eq_of_toNat_eq
  rw [State.instrAddr_eq_addr12, hpc]
  simp only [addr12, plus12, BitVec.toNat_ofNat]
  omega

/-! ### An unrecognised word -/

/-- Settles O13: the report is raised in the state after the fetch, and it names the word and the
address before the advance. -/
theorem unrecognisedWordIsReportedNoOp : Obligations.UnrecognisedWordIsReportedNoOp := by
  unfold Obligations.UnrecognisedWordIsReportedNoOp
  intro s r h
  rw [← State.fetchWord_eq_opcodeAt] at h ⊢
  refine ⟨s.reportSeen.mark (.unimplementedOpcode s.fetchWord (addr12 s.pc 0)), ?_⟩
  rw [step_of_error h, State.unrecognised, State.instrAddr_enter, State.enter_eq_afterFetch]
  rfl

/-! ### The stack conditions -/

theorem State.sp_eq_zero_iff (s : State) : s.sp = 0 ↔ s.sp.toNat = 0 := BitVec.toNat_inj.symm

theorem State.sp_eq_sixteen_iff (s : State) : s.sp = 16 ↔ s.sp.toNat = 16 := BitVec.toNat_inj.symm

/-- `CALL` with no slot left (R144; D9). -/
theorem execCall_of_full {s : State} (nnn : Addr) (h : s.sp.toNat = 16) :
    execCall nnn s = .next (s.raise (.stackOverflow s.instrAddr)) :=
  if_pos (s.sp_eq_sixteen_iff.2 h)

/-- `RET` with nothing to pop (R141; D10). -/
theorem execRet_of_empty {s : State} (h : s.sp.toNat = 0) :
    execRet s = .next (s.raise (.stackUnderflow s.instrAddr)) :=
  if_pos (s.sp_eq_zero_iff.2 h)

/-- Settles O24: at its bound each of the two raises its report and does nothing more. -/
theorem stackConditionsAreReportedNoOps : Obligations.StackConditionsAreReportedNoOps := by
  unfold Obligations.StackConditionsAreReportedNoOps
  refine ⟨fun nnn s h => ?_, fun s h => ?_⟩
  · rw [← State.instrAddr_eq_addr12]
    exact execCall_of_full nnn h
  · rw [← State.instrAddr_eq_addr12]
    exact execRet_of_empty h

/-! ### What a step reports -/

theorem execRet_report {s t : State} (h : execRet s = .next t) :
    t.report = if s.sp.toNat = 0 then .stackUnderflow s.instrAddr else s.report := by
  obtain ⟨hsp, rfl⟩ | ⟨hsp, _, rfl⟩ := execRet_cases h
  · rw [if_pos (s.sp_eq_zero_iff.1 hsp), State.raise_report]
  · rw [if_neg (mt s.sp_eq_zero_iff.2 hsp)]

theorem execCall_report {s t : State} {nnn : Addr} (h : execCall nnn s = .next t) :
    t.report = if s.sp.toNat = 16 then .stackOverflow s.instrAddr else s.report := by
  obtain ⟨hsp, rfl⟩ | ⟨hsp, _, rfl⟩ := execCall_cases h
  · rw [if_pos (s.sp_eq_sixteen_iff.1 hsp), State.raise_report]
  · rw [if_neg (mt s.sp_eq_sixteen_iff.2 hsp)]

/-- An instruction that does not use the stack leaves the report as it is. -/
theorem exec_report_of_not_movesSp {i : Instr} {s t : State} (h : exec i s = .next t)
    (hi : i.movesSp = false) : t.report = s.report := by
  have hframe : t.report = if i.movesSp then t.report else s.report :=
    congrArg State.report (exec_eq_changedBy h)
  rwa [hi] at hframe

/-- Settles O16: the report is none when the instruction acts, and only the unrecognised word, `RET`
and `CALL` can raise another. -/
theorem stepReportsExactly : Obligations.StepReportsExactly := by
  unfold Obligations.StepReportsExactly
  intro s t h
  obtain ⟨i, u, hi, hu, rfl⟩ | ⟨hnone, rfl⟩ := step_cases h
  · rw [hi, State.dropRnd_report, ← State.instrAddr_enter]
    cases i with
    | ret => exact execRet_report hu
    | call nnn => exact execCall_report hu
    | _ => exact exec_report_of_not_movesSp hu rfl
  · rw [hnone, State.dropRnd_report, State.unrecognised, State.raise_report, State.instrAddr_enter,
      State.fetchWord_eq_opcodeAt]

end Sys2Proof.Machine
end

section
/-!
PROOFS. The invariants of R37 along a step, and which states have a step at all: one lemma per write
that the invariants speak of, then the instructions, the step, and sessions by induction over their
events.
-/

namespace Sys2Proof.Machine

/-! ### Writes under the invariants -/

theorem State.sp_add_one_toNat {s : State} (h : s.sp.toNat < 16) :
    (s.sp + 1).toNat = s.sp.toNat + 1 := by
  rw [BitVec.toNat_add, show (1 : BitVec 5).toNat = 1 from rfl]
  omega

theorem State.sp_sub_one_toNat {s : State} (h : 0 < s.sp.toNat) :
    (s.sp - 1).toNat = s.sp.toNat - 1 := by
  rw [BitVec.toNat_sub, show (1 : BitVec 5).toNat = 1 from rfl]
  omega

section
variable {font : FontTable} {s t : State} (hs : s.Inv font)
include hs

/-- The invariants speak of `pc`, `I`, the stack and memory alone. -/
theorem State.Inv.of_same (hpc : t.pc = s.pc) (hi : t.i = s.i) (hsp : t.sp = s.sp)
    (hstack : t.stack = s.stack) (hfont : t.font = s.font) (hmem : t.mem = s.mem) : t.Inv font where
  pc_lt := hpc ▸ hs.pc_lt
  i_lt := hi ▸ hs.i_lt
  sp_le := hsp ▸ hs.sp_le
  stack_lt := hstack ▸ hs.stack_lt
  mem_wf := hmem ▸ hs.mem_wf
  font_intact a ha := (State.memRead_congr hfont hmem a).trans (hs.font_intact a ha)

/-- Any write of `pc` keeps the invariants, since it is masked (R24; D2). -/
theorem State.Inv.setPc (a : Word) : (s.setPc a).Inv font where
  pc_lt := by rw [State.setPc_pc, mask12_toNat]; exact Nat.mod_lt _ (by decide)
  i_lt := hs.i_lt
  sp_le := hs.sp_le
  stack_lt := hs.stack_lt
  mem_wf := hs.mem_wf
  font_intact := hs.font_intact

/-- Any write of `I` keeps the invariants, since it is masked (R27; D2). -/
theorem State.Inv.setI (a : Word) : (s.setI a).Inv font where
  pc_lt := hs.pc_lt
  i_lt := by rw [State.setI_i, mask12_toNat]; exact Nat.mod_lt _ (by decide)
  sp_le := hs.sp_le
  stack_lt := hs.stack_lt
  mem_wf := hs.mem_wf
  font_intact := hs.font_intact

theorem State.Inv.skipIf (c : Bool) : (s.skipIf c).Inv font := by
  cases c with
  | false => exact hs
  | true => exact hs.setPc _

/-- A report changes no part the invariants speak of. -/
theorem State.Inv.raise (r : Report) : (s.raise r).Inv font := hs.of_same rfl rfl rfl rfl rfl rfl

theorem State.Inv.dropRnd : s.dropRnd.Inv font := hs.of_same rfl rfl rfl rfl rfl rfl

/-- A block store keeps `mem` canonical and discards what falls in the font region (R66; D16). -/
theorem State.Inv.storeFrom (k : Nat) (bytes : List Byte) : (s.storeFrom k bytes).Inv font where
  pc_lt := by rw [State.storeFrom_eq]; exact hs.pc_lt
  i_lt := by rw [State.storeFrom_eq]; exact hs.i_lt
  sp_le := by rw [State.storeFrom_eq]; exact hs.sp_le
  stack_lt := by rw [State.storeFrom_eq]; exact hs.stack_lt
  mem_wf := State.wf_storeFrom k bytes hs.mem_wf
  font_intact a ha := by
    have ha80 : a < 80 := ha
    have hfont : a % 4096 < Config.fontSize := by rwa [Nat.mod_eq_of_lt (by omega)]
    rw [← hs.font_intact a ha, State.memRead_font _ hfont, State.memRead_font _ hfont]
    simp only [State.font_storeFrom]

theorem State.Inv.setRegs (k : Nat) (bytes : List Byte) : (s.setRegs k bytes).Inv font := by
  rw [State.setRegs_eq]
  exact hs.of_same rfl rfl rfl rfl rfl rfl

/-- The slot that `CALL` writes takes the 12-bit `pc`, and `sp` stays within 16 (R144; D9, D22). -/
theorem State.Inv.pushAndJump (hsp : s.sp.toNat < 16) (nnn : Addr) :
    { s with
      stack := s.stack.set s.sp.toNat s.pc hsp
      sp := s.sp + 1
      pc := addrWord nnn : State }.Inv font where
  pc_lt := by rw [addrWord_toNat]; exact nnn.isLt
  i_lt := hs.i_lt
  sp_le := by
    rw [State.sp_add_one_toNat hsp]
    exact hsp
  stack_lt k hk := by
    rw [Vector.getElem_set]
    split
    · exact hs.pc_lt
    · exact hs.stack_lt k hk
  mem_wf := hs.mem_wf
  font_intact := hs.font_intact

/-- What `RET` pops is masked like every write of `pc` (R141; D10, D22). -/
theorem State.Inv.popInto (hsp : (s.sp - 1).toNat < 16) (a : Word) :
    { s with sp := s.sp - 1, pc := mask12 a : State }.Inv font where
  pc_lt := (hs.setPc a).pc_lt
  i_lt := hs.i_lt
  sp_le := Nat.le_of_lt hsp
  stack_lt := hs.stack_lt
  mem_wf := hs.mem_wf
  font_intact := hs.font_intact

/-! ### Instructions and steps under the invariants -/

theorem exec_keeps_inv {i : Instr} (h : exec i s = .next t) : t.Inv font := by
  cases i with
  | ret =>
    obtain ⟨-, rfl⟩ | ⟨-, hsp, rfl⟩ := execRet_cases h
    · exact hs.raise _
    · exact hs.popInto hsp _
  | call nnn =>
    obtain ⟨-, rfl⟩ | ⟨-, hsp, rfl⟩ := execCall_cases h
    · exact hs.raise _
    · exact hs.pushAndJump hsp nnn
  | ldVxK x =>
    obtain ⟨_, -, rfl⟩ | ⟨-, rfl⟩ := execLdVxK_cases h
    · exact hs.of_same rfl rfl rfl rfl rfl rfl
    · exact hs.setPc _
  | sys _ | jp _ | jpV0 _ => cases h; exact hs.setPc _
  | seImm _ _ | sneImm _ _ | seReg _ _ | sneReg _ _ | skp _ | sknp _ => cases h; exact hs.skipIf _
  | ldI _ | addI _ | ldF _ => cases h; exact hs.setI _
  | ldB _ | ldMemVx _ => cases h; exact hs.storeFrom _ _
  | ldVxMem _ => cases h; exact hs.setRegs _ _
  | _ => cases h; exact hs.of_same rfl rfl rfl rfl rfl rfl

/-- The phases before the instruction keep the invariants: of what they speak of only `pc` moves. -/
theorem State.Inv.enter : s.enter.Inv font :=
  (hs.of_same (t := s.clearReport.tick) rfl rfl rfl rfl rfl rfl).setPc _

theorem step_keeps_inv (h : step s = .next t) : t.Inv font := by
  obtain ⟨i, u, -, hu, rfl⟩ | ⟨-, rfl⟩ := step_cases h
  · exact (exec_keeps_inv hs.enter hu).dropRnd
  · exact (hs.enter.raise _).dropRnd

end

/-- Settles O3: the phases before the instruction, the instruction and the end of the step each keep
the invariants. -/
theorem stepKeepsInvariant : Obligations.StepKeepsInvariant := by
  unfold Obligations.StepKeepsInvariant
  exact fun font s t hs h => step_keeps_inv hs h

/-! ### Where an instruction stops -/

/-- `CALL` with `sp` at 17..31 has no slot to push into (log entry 6). -/
theorem execCall_of_deep {s : State} (nnn : Addr) (h : 16 < s.sp.toNat) :
    execCall nnn s = .fault .noStackSlot := by
  have hfull : s.sp ≠ 16 := mt s.sp_eq_sixteen_iff.1 (by omega)
  have hslot : ¬ s.sp.toNat < 16 := by omega
  simp only [execCall, hfull, if_false, State.push, hslot, dif_neg, not_false_eq_true]

/-- `RET` with `sp` at 17..31 has no slot to pop (log entry 6). -/
theorem execRet_of_deep {s : State} (h : 16 < s.sp.toNat) : execRet s = .fault .noStackSlot := by
  have hempty : s.sp ≠ 0 := mt s.sp_eq_zero_iff.1 (by omega)
  have hslot : ¬ (s.sp - 1).toNat < 16 := by
    rw [State.sp_sub_one_toNat (by omega)]
    omega
  simp only [execRet, hempty, if_false, State.pop, hslot, dif_neg, not_false_eq_true]

theorem exec_of_deep {i : Instr} {s : State} (hi : i.movesSp = true) (h : 16 < s.sp.toNat) :
    exec i s = .fault .noStackSlot := by
  cases i with
  | ret => exact execRet_of_deep h
  | call nnn => exact execCall_of_deep nnn h
  | _ => cases hi

theorem execCall_answers (nnn : Addr) {s : State} (h : s.sp.toNat ≤ 16) :
    ∃ t, execCall nnn s = .next t := by
  obtain hlt | heq := Nat.lt_or_eq_of_le h
  · exact ⟨_, execCall_of_lt nnn hlt⟩
  · exact ⟨_, execCall_of_full nnn heq⟩

theorem execRet_answers {s : State} (h : s.sp.toNat ≤ 16) : ∃ t, execRet s = .next t := by
  obtain h0 | hpos := Nat.eq_zero_or_pos s.sp.toNat
  · exact ⟨_, execRet_of_empty h0⟩
  · exact ⟨_, execRet_of_pos hpos h⟩

/-- Away from the impossible stack depths every instruction answers a next state. -/
theorem exec_answers {i : Instr} {s : State} (h : i.movesSp = true → s.sp.toNat ≤ 16) :
    ∃ t, exec i s = .next t := by
  cases i with
  | ret => exact execRet_answers (h rfl)
  | call nnn => exact execCall_answers nnn (h rfl)
  | ldVxK x =>
    show ∃ t, execLdVxK x s = .next t
    unfold execLdVxK
    cases s.lowestKey <;> exact ⟨_, rfl⟩
  | _ => exact ⟨_, rfl⟩

/-- Settles O25: an instruction that does not answer a next state uses the stack at a depth above 16,
and there it faults. -/
theorem onlyImpossibleStackDepthsFault : Obligations.OnlyImpossibleStackDepthsFault := by
  unfold Obligations.OnlyImpossibleStackDepthsFault
  intro i s f
  by_cases h : i.movesSp = true ∧ 16 < s.sp.toNat
  · obtain ⟨hmoves, hdeep⟩ := h
    rw [exec_of_deep hmoves hdeep]
    simp [hmoves, hdeep]
  · obtain ⟨t, ht⟩ := exec_answers fun hi => Nat.le_of_not_lt fun hsp => h ⟨hi, hsp⟩
    simp [ht, h]

theorem step_answers {font : FontTable} {s : State} (hs : s.Inv font) : ∃ t, step s = .next t := by
  cases hd : decodeWord s.fetchWord with
  | ok i =>
    obtain ⟨t, ht⟩ := exec_answers (i := i) (s := s.enter) fun _ => hs.sp_le
    exact ⟨t.dropRnd, by rw [step_of_ok hd, ht, endStep]⟩
  | error r => exact ⟨_, step_of_error hd⟩

/-- Settles O4: `sp` is at most 16, so that no instruction faults, and an unrecognised word reports. -/
theorem invariantStateAlwaysSteps : Obligations.InvariantStateAlwaysSteps := by
  unfold Obligations.InvariantStateAlwaysSteps
  exact fun font s hs => step_answers hs

/-! ### Sessions -/

theorem Session.event_keeps_inv {font : FontTable} {x y : Session} {e : Event}
    (hx : x.machine.Inv font) (h : x.event e = .next y) : y.machine.Inv font := by
  obtain ⟨hhost, hpresent, hload⟩ := hostMovesKeepInvariant font
  obtain ⟨rom, -, hl | ⟨_, -, rfl⟩⟩ | ⟨b, t, -, ht, rfl⟩ | ⟨m, -, rfl⟩ := Session.event_cases h
  · exact hload x y rom hx hl
  · exact hx
  · exact step_keeps_inv (hpresent x.machine b hx) ht
  · exact hhost x.machine m hx

theorem Session.event_answers {font : FontTable} {x : Session} (hx : x.machine.Inv font)
    (e : Event) : ∃ y, x.event e = .next y := by
  cases e with
  | load rom =>
    cases hl : x.load rom with
    | ok y => exact ⟨y, Session.event_load_ok hl⟩
    | error r => exact ⟨x, Session.event_load_error hl⟩
  | step b =>
    obtain ⟨-, hpresent, -⟩ := hostMovesKeepInvariant font
    obtain ⟨t, ht⟩ := step_answers (hpresent x.machine b hx)
    exact ⟨⟨t, false⟩, by simp only [Session.event, State.stepWith, ht]⟩
  | host m => exact ⟨_, rfl⟩

theorem Session.run_cons_of_event {x y : Session} {e : Event} (h : x.event e = .next y)
    (rest : List Event) : x.run (e :: rest) = y.run rest := by
  simp only [Session.run, h]

theorem Session.run_answers_and_keeps_inv {font : FontTable} {x : Session} (events : List Event)
    (hx : x.machine.Inv font) : ∃ y, x.run events = .next y ∧ y.machine.Inv font := by
  induction events generalizing x with
  | nil => exact ⟨x, rfl, hx⟩
  | cons e rest ih =>
    obtain ⟨y, hy⟩ := Session.event_answers hx e
    rw [Session.run_cons_of_event hy]
    exact ih (Session.event_keeps_inv hx hy)

/-- Settles O6, by induction over the events: under the invariants each one answers, and keeps
them. -/
theorem sessionsRunAndKeepInvariant : Obligations.SessionsRunAndKeepInvariant := by
  unfold Obligations.SessionsRunAndKeepInvariant
  exact fun font x events hx => Session.run_answers_and_keeps_inv events hx

/-- Settles O2: all is zero but `pc` and the font region, which reads as the table. -/
theorem resetMeetsInvariant : Obligations.ResetMeetsInvariant := by
  unfold Obligations.ResetMeetsInvariant
  intro font
  exact
    { pc_lt := (by decide : 0x200 < 4096)
      i_lt := (by decide : 0 < 4096)
      sp_le := (by decide : 0 ≤ 16)
      stack_lt := fun k hk => by
        rw [show (State.resetWith font).stack[k] = 0 from Vector.getElem_replicate hk]
        decide
      mem_wf := rfl
      font_intact := fun a ha => State.memRead_resetWith_font font ha }

end Sys2Proof.Machine
end

section
/-!
PROOFS. The unrecognised words (`30_encoding.md` R98): each family's rejects in terms of the fields
it tests, then the fields as parts of the word's number.
-/

namespace Sys2Proof

theorem decodeFamily8_eq_error {x y n : Nibble} {r : DecodeReject} :
    decodeFamily8 x y n = .error r ↔
      r = .family8 ∧ n.toNat ∈ [0x8, 0x9, 0xA, 0xB, 0xC, 0xD, 0xF] := by
  have hn : n = BitVec.ofNat 4 n.toNat := by simp
  have hlt := n.isLt
  rw [hn]
  generalize n.toNat = k at hlt
  interval_cases k <;> simp [decodeFamily8, eq_comm]

theorem decodeFamilyE_eq_error {x : Nibble} {kk : Byte} {r : DecodeReject} :
    decodeFamilyE x kk = .error r ↔ r = .familyE ∧ kk.toNat ∉ [0x9E, 0xA1] := by
  unfold decodeFamilyE
  split <;> simp_all [← BitVec.toNat_inj, eq_comm]

theorem decodeFamilyF_eq_error {x : Nibble} {kk : Byte} {r : DecodeReject} :
    decodeFamilyF x kk = .error r ↔ r = .familyF ∧
      kk.toNat ∉ [0x07, 0x0A, 0x15, 0x18, 0x1E, 0x29, 0x33, 0x55, 0x65] := by
  unfold decodeFamilyF
  split <;> simp_all [← BitVec.toNat_inj, eq_comm]

theorem fieldC_toNat_eq_div (w : Word) : (fieldC w).toNat = w.toNat / 4096 := by
  rw [fieldC_toNat]
  omega

/-- The five groups of R98, by the fields that tell them. -/
theorem decodeWord_eq_error {w : Word} {r : DecodeReject} :
    decodeWord w = .error r ↔
      (r = .family5 ∧ (fieldC w).toNat = 5 ∧ (fieldN w).toNat ≠ 0) ∨
      (r = .family9 ∧ (fieldC w).toNat = 9 ∧ (fieldN w).toNat ≠ 0) ∨
      (r = .family8 ∧ (fieldC w).toNat = 8 ∧
        (fieldN w).toNat ∈ [0x8, 0x9, 0xA, 0xB, 0xC, 0xD, 0xF]) ∨
      (r = .familyE ∧ (fieldC w).toNat = 0xE ∧ (fieldKK w).toNat ∉ [0x9E, 0xA1]) ∨
      (r = .familyF ∧ (fieldC w).toNat = 0xF ∧
        (fieldKK w).toNat ∉ [0x07, 0x0A, 0x15, 0x18, 0x1E, 0x29, 0x33, 0x55, 0x65]) := by
  simp only [decodeWord]
  split
  case h_6 hc | h_10 hc =>
    rw [hc]
    split_ifs with hn
    · simp [hn]
    · have hn' : (fieldN w).toNat ≠ 0 := fun e => hn (BitVec.eq_of_toNat_eq e)
      simp [hn', eq_comm]
  case h_9 hc => simp [hc, decodeFamily8_eq_error]
  case h_15 hc => simp [hc, decodeFamilyE_eq_error]
  case h_16 =>
    have hc : fieldC w = 0xF#4 := nibble_eq_F_of_not_mem (by simp_all)
    simp [hc, decodeFamilyF_eq_error]
  all_goals next hc => simp [hc]

/-- Settles O10: a family rejects under its own name alone, and its fields are parts of the word's
number. -/
theorem unrecognisedWordsByFamily : Obligations.UnrecognisedWordsByFamily := by
  unfold Obligations.UnrecognisedWordsByFamily
  intro w
  simp only [ne_eq, decodeWord_eq_error, fieldC_toNat_eq_div, fieldN_toNat, fieldKK_toNat,
    reduceCtorEq, false_and, true_and, false_or, or_false, not_false_eq_true, and_self]

end Sys2Proof
end

section
/-!
PROOFS. The step (`40_step_cycle.md`) as the instruction between two fixed phases, the countdown of
the sound timer (`45_timers_keyboard.md` R258), and the sticky copy of the reports.
-/

namespace Sys2Proof.Machine

open Claims

/-- Settles O12: the fetched word is the one the obligation writes out, and so is the state the
instruction acts in. -/
theorem stepRunsFetchedInstruction : Obligations.StepRunsFetchedInstruction := by
  unfold Obligations.StepRunsFetchedInstruction
  intro s i hi
  rw [← State.fetchWord_eq_opcodeAt] at hi
  rw [← State.enter_eq_afterFetch, step_of_ok hi]
  exact ⟨fun t ht => by rw [ht]; rfl, fun f hf => by rw [hf]; rfl, fun r hr => by rw [hr]; rfl⟩

/-! ### The sound timer -/

/-- A countdown from `st` to zero passes 1 exactly once, `st` steps from its start. -/
theorem stepsWithout_st_and_soundRequest {k : Nat} {s t : State}
    (h : StepsWithout Instr.writesSt k s t) :
    t.st.toNat = s.st.toNat - k ∧
      (t.soundRequest = true ↔ s.soundRequest = true ∨ (1 ≤ s.st.toNat ∧ s.st.toNat ≤ k)) := by
  induction k generalizing s with
  | zero =>
    rw [show t = s from h]
    exact ⟨rfl, (or_iff_left (by omega)).symm⟩
  | succ k ih =>
    obtain ⟨u, hs, hstep, hrest⟩ := h
    obtain ⟨hst, hsound⟩ := ih hrest
    rw [step_st_toNat hstep hs] at hst hsound
    rw [step_soundRequest_iff hstep] at hsound
    refine ⟨by omega, ?_⟩
    rw [hsound, or_assoc]
    exact or_congr_right (by omega)

/-- Settles O15, by induction on the number of steps. -/
theorem soundTimerRaisesRequestAtItsEnd : Obligations.SoundTimerRaisesRequestAtItsEnd := by
  unfold Obligations.SoundTimerRaisesRequestAtItsEnd
  exact fun k s t => stepsWithout_st_and_soundRequest

/-! ### The sticky copy of the reports -/

/-- Marking a condition makes the copy unclean; marking none leaves it as it is. -/
theorem ReportSeen.mark_eq_clean_iff (m : ReportSeen) (r : Report) :
    m.mark r = ⟨false, false, false⟩ ↔ m = ⟨false, false, false⟩ ∧ r = .none := by
  cases r <;> simp [ReportSeen.mark]

/-- An instruction marks in the copy what it reports. -/
theorem exec_reportSeen {i : Instr} {s t : State} (h : exec i s = .next t)
    (hs : s.report = .none) : t.reportSeen = s.reportSeen.mark t.report := by
  cases i with
  | ret =>
    obtain ⟨-, rfl⟩ | ⟨-, _, rfl⟩ := execRet_cases h
    · rfl
    · rw [hs]; rfl
  | call nnn =>
    obtain ⟨-, rfl⟩ | ⟨-, _, rfl⟩ := execCall_cases h
    · rfl
    · rw [hs]; rfl
  | _ =>
    rw [exec_report_of_not_movesSp h rfl, hs, exec_eq_changedBy h]
    rfl

/-- A step marks in the copy what it reports. -/
theorem step_reportSeen {s t : State} (h : step s = .next t) :
    t.reportSeen = s.reportSeen.mark t.report := by
  obtain ⟨i, u, -, hu, rfl⟩ | ⟨-, rfl⟩ := step_cases h
  · rw [State.dropRnd_reportSeen, State.dropRnd_report, ← s.enter_reportSeen]
    exact exec_reportSeen hu s.enter_report
  · rfl

/-- Settles O17: the copy after a step is the copy before it with the step's report marked. -/
theorem stickyCopyRemembersReports : Obligations.StickyCopyRemembersReports := by
  unfold Obligations.StickyCopyRemembersReports
  intro s t h
  rw [State.NoReportSoFar, step_reportSeen h]
  exact ReportSeen.mark_eq_clean_iff _ _

end Sys2Proof.Machine
end

section
/-!
PROOFS. Calls and returns and the jump with an offset (`41_control_flow.md`), the addition to `I`
(`43_index_memory.md` R201).
-/

namespace Sys2Proof.Machine

open Claims

/-! ### The stack -/

/-- Settles O22: below 16 the call writes the slot at `sp`, and no other. -/
theorem callPushesReturnAddress : Obligations.CallPushesReturnAddress := by
  unfold Obligations.CallPushesReturnAddress
  intro nnn s h
  exact ⟨_, execCall_of_lt nnn h, addrWord_toNat nnn, State.sp_add_one_toNat h,
    Vector.getElem_set_self h, fun k hk hne => Vector.getElem_set_ne h hk hne.symm, rfl⟩

/-- Settles O23: above 0 the return reads the slot below `sp` and masks it into `pc`. -/
theorem returnPopsReturnAddress : Obligations.ReturnPopsReturnAddress := by
  unfold Obligations.ReturnPopsReturnAddress
  intro s h0 h16
  exact ⟨_, execRet_of_pos h0 h16, State.sp_sub_one_toNat h0, mask12_toNat _, rfl⟩

/-- Settles O26: the return undoes the call's `sp`, so that it reads the slot the call wrote. -/
theorem returnResumesAfterCall : Obligations.ReturnResumesAfterCall := by
  unfold Obligations.ReturnResumesAfterCall
  intro nnn s t u v hlt hpc hcall hsp hstack hret
  rw [show exec (.call nnn) s = _ from execCall_of_lt nnn hlt] at hcall
  cases hcall
  have hu : u.sp.toNat = s.sp.toNat + 1 := by rw [hsp, State.sp_add_one_toNat hlt]
  rw [show exec .ret u = _ from execRet_of_pos (by omega) (by omega)] at hret
  cases hret
  constructor
  · simp only [hstack, hu, Nat.add_sub_cancel, Vector.getElem_set_self]
    exact mask12_of_lt hpc
  · simp only [hsp, BitVec.add_sub_cancel]

/-! ### Masked sums -/

theorem mask12_add_byteWord (a : Word) (b : Byte) :
    mask12 (a + byteWord b) = plus12 a b.toNat := by
  rw [← mask12_add_ofNat, ← byteWord_toNat b, BitVec.ofNat_toNat, BitVec.setWidth_eq]

/-- Settles O20: the masked sum of `nnn` and `V0`. -/
theorem jumpWithOffsetAddsV0 : Obligations.JumpWithOffsetAddsV0 := by
  unfold Obligations.JumpWithOffsetAddsV0
  intro nnn s
  have htarget := mask12_add_byteWord (addrWord nnn) (s.reg 0)
  rw [plus12, addrWord_toNat] at htarget
  rw [← htarget]
  rfl

/-- Settles O34: the masked sum of `I` and `Vx`. -/
theorem indexAddWraps : Obligations.IndexAddWraps := by
  unfold Obligations.IndexAddWraps
  intro x s
  rw [← mask12_add_byteWord]
  rfl

end Sys2Proof.Machine
end

section
/-!
PROOFS. Keys (`45_timers_keyboard.md`): the key skips and the key-wait.
-/

namespace Sys2Proof.Machine

open Claims

/-! ### The key skips -/

theorem keyIndex_eq {b : Byte} {k : Nibble} (h : b.toNat % 16 = k.toNat) : keyIndex b = k :=
  BitVec.eq_of_toNat_eq ((BitVec.toNat_setWidth 4 b).trans h)

/-- Settles O43: both skips look at the same key, in opposite senses. -/
theorem keySkipsFollowTheKey : Obligations.KeySkipsFollowTheKey := by
  unfold Obligations.KeySkipsFollowTheKey
  intro x k s h
  have hskp : exec (.skp x) s = .next (s.skipIf (s.keyDown k)) := by rw [← keyIndex_eq h]; rfl
  have hsknp : exec (.sknp x) s = .next (s.skipIf (!s.keyDown k)) := by rw [← keyIndex_eq h]; rfl
  rw [hskp, hsknp, State.skipIf_eq_plus12, State.skipIf_eq_plus12]
  refine ⟨rfl, ?_⟩
  cases s.keyDown k <;> rfl

/-! ### The key-wait -/

theorem mask12_sub_two (a : Word) : mask12 (a - 2) = plus12 a 4094 := by
  apply BitVec.eq_of_toNat_eq
  rw [mask12_toNat, plus12, BitVec.toNat_sub, BitVec.toNat_ofNat, show (2 : Word).toNat = 2 from rfl]
  omega

theorem exec_ldVxK_of_key {s : State} {k : Nibble} (x : Nibble) (h : s.lowestKey = some k) :
    exec (.ldVxK x) s = .next (s.setReg x (k.setWidth 8)) := by
  show execLdVxK x s = _
  simp only [execLdVxK, h]

theorem exec_ldVxK_of_no_key {s : State} (x : Nibble) (h : ∀ k, s.keyDown k = false) :
    exec (.ldVxK x) s = .next { s with pc := plus12 s.pc 4094 } := by
  show execLdVxK x s = _
  simp only [execLdVxK, State.lowestKey_none h, State.setPc, mask12_sub_two]

/-- Settles O44: the smallest key down is the one the model finds. -/
theorem keyWaitTakesSmallestKey : Obligations.KeyWaitTakesSmallestKey := by
  unfold Obligations.KeyWaitTakesSmallestKey
  refine ⟨fun x k s hk hmin => ?_, fun x s h => exec_ldVxK_of_no_key x h⟩
  obtain ⟨hvalue, hframe⟩ := s.setReg_value_and_frame x (k.setWidth 8)
  refine ⟨_, exec_ldVxK_of_key x (State.lowestKey_some hk hmin), ?_, hframe⟩
  rw [hvalue]
  exact BitVec.toNat_setWidth_of_le (by decide)

/-- Undoing the fetch advance gives a 12-bit address back, at the top of memory too. -/
theorem plus12_advance_undone {a : Word} (h : a.toNat < 4096) : plus12 (plus12 a 2) 4094 = a := by
  apply BitVec.eq_of_toNat_eq
  simp only [plus12, BitVec.toNat_ofNat]
  omega

/-- A waiting step undoes the fetch advance of `pc`, and no more (R256). -/
theorem step_of_waiting {x : Nibble} {s : State} (hpc : s.pc.toNat < 4096)
    (h : s.nextInstr = some (.ldVxK x)) (hkeys : ∀ k, s.keyDown k = false) :
    step s = .next { stepEnd (afterFetch s) with pc := s.pc } :=
  calc step s
      = endStep (exec (.ldVxK x) (afterFetch s)) := by
        rw [step_of_ok (nextInstr_some.1 h), State.enter_eq_afterFetch]
    _ = endStep (.next { afterFetch s with pc := s.pc }) := by
        rw [exec_ldVxK_of_no_key (s := afterFetch s) x hkeys, afterFetch, plus12_advance_undone hpc]
    _ = .next { stepEnd (afterFetch s) with pc := s.pc } := rfl

/-- Settles O45: neither the tick nor the end of the step touches what the next fetch reads. -/
theorem waitingStepChangesOnlyTimers : Obligations.WaitingStepChangesOnlyTimers := by
  unfold Obligations.WaitingStepChangesOnlyTimers
  intro x s hpc h hkeys
  exact ⟨_, step_of_waiting hpc h hkeys, (State.nextInstr_congr rfl rfl rfl).trans h, rfl⟩

end Sys2Proof.Machine
end

section
/-!
PROOFS. The ALU and the random byte (`42_alu.md`): the flag values as numbers, then each instruction
as one register write or as the write of the flag followed by that of the result (R171).
-/

namespace Sys2Proof.Machine

open Claims

/-! ### Flags and results as numbers -/

theorem flagByte_decide_toNat (p : Prop) [Decidable p] :
    (flagByte (decide p)).toNat = if p then 1 else 0 := by
  by_cases h : p
  · simp [flagByte, h]
  · simp [flagByte, h]

/-- The carry is the ninth bit of the sum (R178). -/
theorem addCarry_toNat (a b : Byte) : (addCarry a b).toNat = (a.toNat + b.toNat) / 256 := by
  rw [addCarry, flagByte_decide_toNat]
  split <;> omega

theorem notBorrow_eq_ite (a b : Byte) : notBorrow a b = if b.toNat ≤ a.toNat then 1 else 0 := by
  simp only [notBorrow, flagByte, decide_eq_true_iff]

theorem sub_toNat (a b : Byte) : (a - b).toNat = (a.toNat + 256 - b.toNat) % 256 := by
  rw [BitVec.toNat_sub]
  omega

theorem shiftedOutLow_toNat (a : Byte) : (shiftedOutLow a).toNat = a.toNat % 2 := by
  rw [shiftedOutLow, BitVec.toNat_and]
  exact Nat.and_one_is_mod a.toNat

/-- The bit shifted out at the top is the most significant one (R182). -/
theorem shiftedOutHigh_toNat (a : Byte) : (shiftedOutHigh a).toNat = a.toNat / 128 := by
  have hbit : (a &&& 0x80 != 0) = a.getLsbD 7 := by
    rw [show (0x80 : Byte) = BitVec.twoPow 8 7 from rfl, BitVec.and_twoPow]
    cases a.getLsbD 7 <;> rfl
  have hmsb : a.getLsbD 7 = decide (128 ≤ a.toNat) :=
    (BitVec.msb_eq_getLsbD_last a).symm.trans (BitVec.msb_eq_decide a)
  rw [shiftedOutHigh, hbit, hmsb, flagByte_decide_toNat]
  split <;> omega

theorem ushiftRight_one_toNat (a : Byte) : (a >>> 1).toNat = a.toNat / 2 := by
  rw [BitVec.toNat_ushiftRight, Nat.shiftRight_one]

theorem shiftLeft_one_toNat (a : Byte) : (a <<< 1).toNat = 2 * a.toNat % 256 := by
  rw [BitVec.toNat_shiftLeft, Nat.shiftLeft_eq, Nat.mul_comm, pow_one]

/-! ### The write of flag and result -/

/-- The result stands in `Vx`, the flag in `VF` unless that is `Vx`; every other register and all
other state is as it was (R171; D5). -/
theorem State.setFlagged_values_and_frame (s : State) (x : Nibble) (flag result : Byte) :
    (s.setFlagged x flag result).reg x = result ∧
      (x ≠ 0xF → (s.setFlagged x flag result).reg 0xF = flag) ∧
      (∀ z, z ≠ x → z ≠ 0xF → (s.setFlagged x flag result).reg z = s.reg z) ∧
      s.setFlagged x flag result = { s with v := (s.setFlagged x flag result).v } := by
  refine ⟨?_, fun hx => ?_, fun z hzx hzF => ?_, rfl⟩
  · rw [State.reg_setFlagged, if_pos rfl]
  · rw [State.reg_setFlagged, if_neg hx.symm]
    exact if_pos rfl
  · rw [State.reg_setFlagged, if_neg hzx]
    exact if_neg hzF

/-! ### The instructions -/

/-- Settles O28: each of the three is one register write, of the operands combined bit by bit. -/
theorem logicIsBitwiseWithoutFlag : Obligations.LogicIsBitwiseWithoutFlag := by
  unfold Obligations.LogicIsBitwiseWithoutFlag
  intro x y s
  obtain ⟨hor, hframeOr⟩ := s.setReg_value_and_frame x (s.reg x ||| s.reg y)
  obtain ⟨hand, hframeAnd⟩ := s.setReg_value_and_frame x (s.reg x &&& s.reg y)
  obtain ⟨hxor, hframeXor⟩ := s.setReg_value_and_frame x (s.reg x ^^^ s.reg y)
  exact ⟨⟨_, rfl, fun b => by rw [hor, BitVec.getLsbD_or], hframeOr⟩,
    ⟨_, rfl, fun b => by rw [hand, BitVec.getLsbD_and], hframeAnd⟩,
    ⟨_, rfl, fun b => by rw [hxor, BitVec.getLsbD_xor], hframeXor⟩⟩

/-- Settles O29: both values are computed from the operands before either write. -/
theorem addSetsCarry : Obligations.AddSetsCarry := by
  unfold Obligations.AddSetsCarry
  intro x y s
  obtain ⟨hresult, hflag, hframe⟩ :=
    s.setFlagged_values_and_frame x (addCarry (s.reg x) (s.reg y)) (s.reg x + s.reg y)
  exact ⟨_, rfl, by rw [hresult, BitVec.toNat_add], fun hx => by rw [hflag hx, addCarry_toNat],
    hframe⟩

/-- The write of a difference and its not-borrow, whichever operand is subtracted (R170). -/
theorem State.setFlagged_sub (s : State) (x : Nibble) (a b : Byte) :
    ((s.setFlagged x (notBorrow a b) (a - b)).reg x).toNat = (a.toNat + 256 - b.toNat) % 256 ∧
      (x ≠ 0xF → (s.setFlagged x (notBorrow a b) (a - b)).reg 0xF =
        if b.toNat ≤ a.toNat then 1 else 0) ∧
      (∀ z, z ≠ x → z ≠ 0xF → (s.setFlagged x (notBorrow a b) (a - b)).reg z = s.reg z) ∧
      s.setFlagged x (notBorrow a b) (a - b) =
        { s with v := (s.setFlagged x (notBorrow a b) (a - b)).v } := by
  obtain ⟨hresult, hflag, hframe⟩ := s.setFlagged_values_and_frame x (notBorrow a b) (a - b)
  exact ⟨by rw [hresult, sub_toNat], fun hx => by rw [hflag hx, notBorrow_eq_ite], hframe⟩

/-- Settles O30: the two subtractions differ in the order of their operands alone. -/
theorem subtractionsSetNotBorrow : Obligations.SubtractionsSetNotBorrow := by
  unfold Obligations.SubtractionsSetNotBorrow
  intro x y s
  exact ⟨⟨_, rfl, s.setFlagged_sub x (s.reg x) (s.reg y)⟩,
    ⟨_, rfl, s.setFlagged_sub x (s.reg y) (s.reg x)⟩⟩

/-- Settles O31: result and flag are functions of `Vx` alone. -/
theorem shiftsUseVxAlone : Obligations.ShiftsUseVxAlone := by
  unfold Obligations.ShiftsUseVxAlone
  intro x y s
  obtain ⟨hshr, hlow, hframeShr⟩ :=
    s.setFlagged_values_and_frame x (shiftedOutLow (s.reg x)) (s.reg x >>> 1)
  obtain ⟨hshl, hhigh, hframeShl⟩ :=
    s.setFlagged_values_and_frame x (shiftedOutHigh (s.reg x)) (s.reg x <<< 1)
  exact ⟨⟨_, rfl, by rw [hshr, ushiftRight_one_toNat],
      fun hx => by rw [hlow hx, shiftedOutLow_toNat], hframeShr⟩,
    ⟨_, rfl, by rw [hshl, shiftLeft_one_toNat],
      fun hx => by rw [hhigh hx, shiftedOutHigh_toNat], hframeShl⟩⟩

/-! ### The random byte -/

theorem exec_rnd (x : Nibble) (kk : Byte) (s : State) :
    exec (.rnd x kk) s = .next (s.setReg x (s.rnd &&& kk)) := rfl

/-- `Cxkk` masks the step's byte, wherever the byte comes from (R183). -/
theorem exec_rnd_masks {s : State} {b : Byte} (x : Nibble) (kk : Byte) (h : s.rnd = b) :
    ∃ t, exec (.rnd x kk) s = .next t ∧
      (∀ j, (t.reg x).getLsbD j = (b.getLsbD j && kk.getLsbD j)) ∧
      (∀ z, z ≠ x → t.reg z = s.reg z) ∧ t = { s with v := t.v } := by
  obtain ⟨hvalue, hframe⟩ := s.setReg_value_and_frame x (s.rnd &&& kk)
  exact ⟨_, exec_rnd x kk s, fun j => by rw [hvalue, h, BitVec.getLsbD_and], hframe⟩

theorem State.rnd_of_some {s : State} {b : Byte} (h : s.rndInput = some b) : s.rnd = b := by
  simp only [State.rnd, h]

theorem State.rnd_of_none {s : State} (h : s.rndInput = none) :
    s.rnd = Config.randomByte s.rndIndex := by
  simp only [State.rnd, h]

/-- The step to which the host gives a byte runs the same instruction, on that byte. -/
theorem stepWith_of_nextInstr {s : State} {i : Instr} (h : s.nextInstr = some i) (b : Byte) :
    s.stepWith b = endStep (exec i (s.presentRnd b).enter) :=
  step_of_ok (nextInstr_some.1 ((State.nextInstr_congr rfl rfl rfl).trans h))

/-- Settles O32: the three clauses differ in where the byte comes from; the phases before the
instruction keep it. -/
theorem randomByteIsMasked : Obligations.RandomByteIsMasked := by
  unfold Obligations.RandomByteIsMasked
  intro x kk s
  refine ⟨fun b h => exec_rnd_masks x kk (State.rnd_of_some h),
    fun h => exec_rnd_masks x kk (State.rnd_of_none h), fun h b => ?_⟩
  obtain ⟨t, ht, hbits, hother, -⟩ :=
    exec_rnd_masks (s := (s.presentRnd b).enter) (b := b) x kk rfl
  exact ⟨t.dropRnd, by rw [stepWith_of_nextInstr h, ht, endStep], hbits, hother⟩

end Sys2Proof.Machine
end

section
/-!
PROOFS. Stores and loads of blocks of bytes (`43_index_memory.md`), and the frames over all
instructions of the registers, of memory and of the font region (`20_memory.md`).
-/

namespace Sys2Proof.Machine

open Claims

/-! ### A block of bytes stored from `I` upward -/

/-- A byte of the font region depends on the table alone. -/
theorem State.memRead_congr_font {s t : State} (hf : t.font = s.font) {a : Nat}
    (h : a % 4096 < Config.fontSize) : t.memRead a = s.memRead a := by
  rw [State.memRead_font t h, State.memRead_font s h]
  simp only [hf]

theorem effAddr_mod (base : Word) (k : Nat) : effAddr base k % 4096 = effAddr base k :=
  Nat.mod_eq_of_lt (effAddr_lt base k)

theorem State.memRead_block_other (s : State) (bytes : List Byte) {a : Nat}
    (h : ∀ k < bytes.length, a % 4096 ≠ effAddr s.i k) :
    (s.storeFrom 0 bytes).memRead a = s.memRead a :=
  State.memRead_storeFrom_other s 0 bytes fun k hk => by
    rw [Nat.zero_add]
    exact h k hk

/-- What falls in the font region is discarded (R66; D16). -/
theorem State.memRead_block_font (s : State) (bytes : List Byte) {k : Nat}
    (h : effAddr s.i k < 80) :
    (s.storeFrom 0 bytes).memRead (effAddr s.i k) = s.memRead (effAddr s.i k) :=
  State.memRead_congr_font (State.font_storeFrom s 0 bytes) ((effAddr_mod s.i k).symm ▸ h)

/-- Above the font region byte `k` of a block lands at `I + k`. -/
theorem State.memRead_block {s : State} {bytes : List Byte} (hwf : s.mem.wf = true)
    (hlen : bytes.length ≤ 16) {k : Nat} (hk : k < bytes.length) (hfont : 80 ≤ effAddr s.i k) :
    (s.storeFrom 0 bytes).memRead (effAddr s.i k) = bytes.getD k 0 := by
  have hplaced := State.memRead_storeFrom s 0 bytes (j := k) hwf (by omega) hk
  rw [Nat.zero_add] at hplaced
  exact hplaced hfont

/-! ### `Fx33` and `Fx55` -/

theorem exec_ldB (x : Nibble) (s : State) :
    exec (.ldB x) s = .next (s.storeFrom 0 (bcdDigits (s.reg x))) := rfl

/-- Settles O35: the block of the three digits. -/
theorem bcdStoresThreeDigits : Obligations.BcdStoresThreeDigits := by
  unfold Obligations.BcdStoresThreeDigits
  intro x s
  have hlt := (s.reg x).isLt
  refine ⟨_, exec_ldB x s, s.storeFrom_eq 0 _, fun a h => s.memRead_block_other _ h,
    fun k _ h => s.memRead_block_font _ h, fun hwf => ⟨fun h => ?_, fun h => ?_, fun h => ?_⟩⟩
  all_goals
    rw [State.memRead_block hwf (by simp [bcdDigits]) (by simp [bcdDigits]) h]
    simp only [bcdDigits, List.getD_cons_zero, List.getD_cons_succ, BitVec.toNat_ofNat]
    omega

theorem exec_ldMemVx (x : Nibble) (s : State) :
    exec (.ldMemVx x) s = .next (s.storeFrom 0 (s.regList (x.toNat + 1))) := rfl

/-- Each register of the block lands at its own address, outside the font region (R204). -/
theorem State.memRead_store_regList {s : State} (hwf : s.mem.wf = true) {x y : Nibble}
    (hy : y.toNat ≤ x.toNat) (hfont : 80 ≤ effAddr s.i y.toNat) :
    (s.storeFrom 0 (s.regList (x.toNat + 1))).memRead (effAddr s.i y.toNat) = s.reg y := by
  have hx := x.isLt
  have hlt : y.toNat < x.toNat + 1 := by omega
  rw [State.memRead_block hwf (by rw [State.regList_length]; omega)
    (by rwa [State.regList_length]) hfont, State.regList_getD s hlt, BitVec.ofNat_toNat,
    BitVec.setWidth_eq]

/-- Settles O36: the block of the registers. -/
theorem blockStoreWritesRegisters : Obligations.BlockStoreWritesRegisters := by
  unfold Obligations.BlockStoreWritesRegisters
  intro x s
  refine ⟨_, exec_ldMemVx x s, s.storeFrom_eq 0 _, fun a h => s.memRead_block_other _ ?_,
    fun k _ h => s.memRead_block_font _ h, fun hwf y hy h => State.memRead_store_regList hwf hy h⟩
  intro k hk
  rw [State.regList_length] at hk
  exact h k (Nat.le_of_lt_succ hk)

/-! ### `Fx65` -/

theorem exec_ldVxMem (x : Nibble) (s : State) :
    exec (.ldVxMem x) s = .next (s.setRegs 0 (s.loadBytes (x.toNat + 1))) := rfl

/-- The registers up to `Vx` take the bytes from `I` upward, the others stay (R205). -/
theorem State.reg_setRegs_loadBytes (s : State) (x y : Nibble) :
    (s.setRegs 0 (s.loadBytes (x.toNat + 1))).reg y =
      if y.toNat ≤ x.toNat then s.memRead (effAddr s.i y.toNat) else s.reg y := by
  have hx := x.isLt
  rw [State.reg_setRegs _ _ _ _ (by rw [State.loadBytes_length]; omega), State.loadBytes_length,
    Nat.sub_zero]
  by_cases hy : y.toNat ≤ x.toNat
  · have hlt : y.toNat < x.toNat + 1 := by omega
    rw [if_pos hy, if_pos (by omega), State.loadBytes_getD s hlt]
  · rw [if_neg hy, if_neg (by omega)]

/-- Settles O37: the block load, register by register. -/
theorem blockLoadReadsRegisters : Obligations.BlockLoadReadsRegisters := by
  unfold Obligations.BlockLoadReadsRegisters
  intro x s
  exact ⟨_, exec_ldVxMem x s, s.reg_setRegs_loadBytes x, s.setRegs_eq 0 _⟩

/-! ### A store seen by the next fetch -/

theorem opcodeAt_toNat (s : State) :
    (opcodeAt s).toNat =
      256 * (s.memRead s.pc.toNat).toNat + (s.memRead (s.pc.toNat + 1)).toNat := by
  rw [← State.fetchWord_eq_opcodeAt, State.fetchWord, wordOfBytes_toNat, Nat.mul_comm]

/-- Settles O38: the two stored registers lie at `pc` and `pc + 1`, which the store leaves where it
is. -/
theorem nextFetchSeesStore : Obligations.NextFetchSeesStore := by
  unfold Obligations.NextFetchSeesStore
  intro x y s t hwf h hy hpc hfont htop
  have hx := x.isLt
  have hsucc : (y + 1).toNat = y.toNat + 1 := by
    rw [BitVec.toNat_add, show (1 : Nibble).toNat = 1 from rfl]
    omega
  have hpc' : effAddr s.i (y + 1).toNat = s.pc.toNat + 1 := by
    rw [hsucc]
    simp only [effAddr, Config.memSize] at hpc ⊢
    omega
  have hhi := State.memRead_store_regList hwf (x := x) (y := y) (by omega) (by omega)
  have hlo := State.memRead_store_regList hwf (x := x) (y := y + 1) (by omega) (by omega)
  rw [hpc] at hhi
  rw [hpc'] at hlo
  rw [exec_ldMemVx] at h
  cases h
  have hkept : (s.storeFrom 0 (s.regList (x.toNat + 1))).pc = s.pc := by rw [State.storeFrom_eq]
  rw [opcodeAt_toNat, hkept, hhi, hlo]

/-! ### Frames over all instructions -/

theorem State.reg_congr {s t : State} (h : t.v = s.v) (y : Nibble) : t.reg y = s.reg y := by
  simp only [State.reg, h]

theorem State.reg_setFlagged_other (s : State) {x y : Nibble} (flag result : Byte) (hx : y ≠ x)
    (hF : y ≠ regF) : (s.setFlagged x flag result).reg y = s.reg y := by
  rw [State.reg_setFlagged, if_neg hx, if_neg hF]

theorem exec_reg_other {i : Instr} {s t : State} {y : Nibble} (h : exec i s = .next t)
    (hy : i.mayWriteReg y = false) : t.reg y = s.reg y := by
  cases i with
  | ldImm x _ | addImm x _ | rnd x _ | ldReg x _ | orReg x _ | andReg x _ | xorReg x _ | ldVxDt x =>
    cases h
    exact s.reg_setReg_other _ (ne_of_beq_false hy)
  | addReg x _ | sub x _ | shr x _ | subn x _ | shl x _ =>
    obtain ⟨hx, hF⟩ : (y == x) = false ∧ (y == regF) = false := Bool.or_eq_false_iff.1 hy
    cases h
    exact s.reg_setFlagged_other _ _ (ne_of_beq_false hx) (ne_of_beq_false hF)
  | drw _ _ _ =>
    have hF : y ≠ regF := ne_of_beq_false hy
    cases h
    rw [State.reg_setReg_other _ _ hF, State.reg_setDisplay, State.reg_setReg_other _ _ hF]
  | ldVxK x =>
    obtain ⟨_, -, rfl⟩ | ⟨-, rfl⟩ := execLdVxK_cases h
    · exact s.reg_setReg_other _ (ne_of_beq_false hy)
    · rfl
  | ldVxMem x =>
    cases h
    rw [State.reg_setRegs_loadBytes, if_neg (of_decide_eq_false hy)]
  | ret => obtain ⟨-, rfl⟩ | ⟨-, _, rfl⟩ := execRet_cases h <;> rfl
  | call _ => obtain ⟨-, rfl⟩ | ⟨-, _, rfl⟩ := execCall_cases h <;> rfl
  | seImm _ _ | sneImm _ _ | seReg _ _ | sneReg _ _ | skp _ | sknp _ =>
    cases h
    exact State.reg_congr (by rw [State.skipIf_eq]) y
  | ldB _ | ldMemVx _ =>
    cases h
    exact State.reg_congr (by rw [State.storeFrom_eq]) y
  | cls | sys _ | jp _ | jpV0 _ | ldI _ | addI _ | ldF _ | ldDtVx _ | ldStVx _ => cases h; rfl

/-- Settles O46, instruction by instruction, along the writes each is made of. -/
theorem registersOutsideDestinationKeep : Obligations.RegistersOutsideDestinationKeep := by
  unfold Obligations.RegistersOutsideDestinationKeep
  exact fun i s t y h hy => exec_reg_other h hy

theorem exec_font {i : Instr} {s t : State} (h : exec i s = .next t) : t.font = s.font := by
  rw [exec_eq_changedBy h]
  rfl

/-- An instruction that stores nothing leaves `mem` as it is. -/
theorem exec_mem_of_storeLen_zero {i : Instr} {s t : State} (h : exec i s = .next t)
    (hi : i.storeLen = 0) : t.mem = s.mem := by
  cases i with
  | ldB _ | ldMemVx _ => cases hi
  | ret => obtain ⟨-, rfl⟩ | ⟨-, _, rfl⟩ := execRet_cases h <;> rfl
  | call _ => obtain ⟨-, rfl⟩ | ⟨-, _, rfl⟩ := execCall_cases h <;> rfl
  | ldVxK _ => obtain ⟨_, -, rfl⟩ | ⟨-, rfl⟩ := execLdVxK_cases h <;> rfl
  | seImm _ _ | sneImm _ _ | seReg _ _ | sneReg _ _ | skp _ | sknp _ =>
    cases h
    rw [State.skipIf_eq]
  | ldVxMem _ =>
    cases h
    rw [State.setRegs_eq]
  | _ => cases h; rfl

theorem exec_memRead_other {i : Instr} {s t : State} {a : Nat} (h : exec i s = .next t)
    (ha : ∀ k, k < i.storeLen → a % 4096 ≠ effAddr s.i k) : t.memRead a = s.memRead a := by
  cases i with
  | ldB x =>
    cases h
    exact s.memRead_block_other _ ha
  | ldMemVx x =>
    cases h
    refine s.memRead_block_other _ ?_
    rw [State.regList_length]
    exact ha
  | _ => exact State.memRead_congr (exec_font h) (exec_mem_of_storeLen_zero h rfl) a

/-- Settles O47: the two instructions that store, by the rule of a block; the others leave memory as
it is. -/
theorem memoryOutsideStoreKeeps : Obligations.MemoryOutsideStoreKeeps := by
  unfold Obligations.MemoryOutsideStoreKeeps
  exact fun i s t a h ha => exec_memRead_other h ha

theorem step_font {s t : State} (h : step s = .next t) : t.font = s.font := by
  obtain ⟨i, u, -, hu, rfl⟩ | ⟨-, rfl⟩ := step_cases h
  · rw [State.dropRnd_font, ← s.enter_font]
    exact exec_font hu
  · rfl

/-- Settles O49: the font region reads as the table, which no step writes. -/
theorem fontRegionNeverChanges : Obligations.FontRegionNeverChanges := by
  unfold Obligations.FontRegionNeverChanges
  exact fun s t a h ha => State.memRead_congr_font (step_font h) ha

end Sys2Proof.Machine
end

section
/-!
PROOFS. The load (`70_reset_and_hazards.md` R302, `20_memory.md` R74): where its bytes land, and that
it is had once.
-/

namespace Sys2Proof.Machine

open Claims

/-- Settles O51: a ROM that fits is read back from 0x200 upward, and everything else as before. -/
theorem loadPlacesRom : Obligations.LoadPlacesRom := by
  unfold Obligations.LoadPlacesRom
  refine ⟨fun x rom hf hwf hl => ?_, fun x rom hf hl => Session.load_tooLarge hf hl,
    fun x rom hf => Session.load_notFresh rom hf, fun font => ⟨rfl, rfl⟩⟩
  refine ⟨_, Session.load_ok_iff.2 ⟨hf, hl, rfl⟩, fun k hk => ?_, fun a ha hout => ?_, rfl⟩
  · rw [State.memRead_putAll _ hwf hl (by omega), if_pos (by omega), Nat.add_sub_cancel_left]
  · rw [State.memRead_putAll _ hwf hl ha, if_neg (by omega)]

/-- Over any events a load that is gone stays gone. -/
theorem Session.fresh_run {x y : Session} {events : List Event} (h : x.run events = .next y)
    (hx : x.fresh = false) : y.fresh = false := by
  induction events generalizing x with
  | nil =>
    cases h
    exact hx
  | cons e rest ih =>
    simp only [Session.run] at h
    split at h
    · next z hz => exact ih h (Session.fresh_event hz hx)
    · cases h
    · cases h

theorem Session.fresh_step {x y : Session} {b : Byte} (h : x.event (.step b) = .next y) :
    y.fresh = false := by
  obtain ⟨_, he, -⟩ | ⟨_, _, -, -, rfl⟩ | ⟨_, he, -⟩ := Session.event_cases h
  · cases he
  · rfl
  · cases he

theorem Session.fresh_load {x y : Session} {rom : List Byte} (h : x.load rom = .ok y) :
    y.fresh = false := by
  obtain ⟨-, -, rfl⟩ := Session.load_ok_iff.1 h
  rfl

/-- Settles O52: a step and a load that succeeds take the load away, and no event gives it back. -/
theorem oneLoadBeforeTheFirstStep : Obligations.OneLoadBeforeTheFirstStep := by
  unfold Obligations.OneLoadBeforeTheFirstStep
  exact ⟨fun _ _ _ => Session.fresh_step, fun _ _ _ => Session.fresh_load,
    fun _ _ _ rom hx h => Session.load_notFresh rom (Session.fresh_run h hx),
    fun _ _ _ => Session.event_load_error⟩

/-- Settles O53: after reset `pc` is the address of the ROM's first byte. -/
theorem loadedProgramStartsAtItsFirstWord : Obligations.LoadedProgramStartsAtItsFirstWord := by
  unfold Obligations.LoadedProgramStartsAtItsFirstWord
  intro font rom y hlen h
  obtain ⟨-, hl, rfl⟩ := Session.load_ok_iff.1 h
  have hread (k : Nat) (hk : k < 2) :
      ({ State.resetWith font with
        mem := (State.resetWith font).mem.putAll Config.programStart rom } : State).memRead
          (0x200 + k) = rom.getD k 0 := by
    rw [State.memRead_putAll _ rfl hl (by omega), if_pos (by omega), Nat.add_sub_cancel_left]
  have hhi := hread 0 (by decide)
  have hlo := hread 1 (by decide)
  rw [opcodeAt_toNat, ← hhi, ← hlo]
  rfl

end Sys2Proof.Machine
end

section
/-!
PROOFS. Drawing (`44_display.md` R228, R229): `Dxyn` as one toggle of the pixels on which the sprite
is lit, so that two draws at one position cancel.
-/

namespace Sys2Proof.Machine

open Claims

/-! ### What `Dxyn` draws -/

/-- Whether the sprite that `Dxyn` draws is lit at column `px`, row `py`. -/
def State.spriteAt (s : State) (x y n : Nibble) (px py : Nat) : Bool :=
  spritePixel (s.spriteRows y n) (originCol (s.reg x)) (originRow (s.reg y)) px py

/-- The display that `Dxyn` leaves, and whether it met a lit pixel. -/
def State.drawn (s : State) (x y n : Nibble) : Display × Bool :=
  drawRows s.display (originCol (s.reg x)) (originRow (s.reg y)) (s.spriteRows y n)

theorem exec_drw (x y n : Nibble) (s : State) :
    exec (.drw x y n) s =
      .next ((s.setReg regF (flagByte (s.drawn x y n).2)).setDisplay (s.drawn x y n).1) :=
  execDrw_eq x y n s

/-- On the screen the sprite is lit where the obligations say so (R228). -/
theorem State.spriteAt_iff (s : State) (x y n : Nibble) {px py : Nat} (hpy : py < 32) :
    s.spriteAt x y n px py = true ↔
      SpriteLit s n ((s.reg x).toNat % 64) ((s.reg y).toNat % 32) px py := by
  have hrow : originRow (s.reg y) = (s.reg y).toNat % 32 := rfl
  simp only [State.spriteAt, spritePixel, spriteBit, SpriteLit, State.spriteRows_length,
    Bool.and_eq_true, decide_eq_true_eq]
  constructor
  · rintro ⟨hle, hlt, hcol, hcol', hbit⟩
    rw [State.spriteRows_getD s y n (by omega)] at hbit
    simp only [visibleRows] at hlt
    exact ⟨hcol, hcol', hle, by omega, hbit⟩
  · rintro ⟨hcol, hcol', hle, hlt, hbit⟩
    have hvisible : py - originRow (s.reg y) < visibleRows n (originRow (s.reg y)) := by
      simp only [visibleRows]
      omega
    rw [State.spriteRows_getD s y n hvisible]
    exact ⟨hle, by omega, hcol, hcol', hbit⟩

theorem State.originRow_add_spriteRows_le (s : State) (y n : Nibble) :
    originRow (s.reg y) + (s.spriteRows y n).length ≤ 32 := by
  rw [State.spriteRows_length]
  exact originRow_add_visible n (s.reg y)

/-- A draw toggles the pixels on which the sprite is lit. -/
theorem State.drawn_pixel (s : State) (x y n : Nibble) {px : Nat} (py : Nat) (hpx : px < 64) :
    (s.drawn x y n).1.pixel px py = (s.display.pixel px py ^^ s.spriteAt x y n px py) :=
  drawRows_pixel _ _ (Nat.mod_lt _ (by decide)) (s.originRow_add_spriteRows_le y n) hpx

/-- A draw collides iff the sprite is lit on a lit pixel of the screen. -/
theorem State.drawn_collides (s : State) (x y n : Nibble) :
    (s.drawn x y n).2 = true ↔ ∃ px py, px < 64 ∧ py < 32 ∧ s.display.pixel px py = true ∧
      s.spriteAt x y n px py = true :=
  drawRows_collides _ _ (Nat.mod_lt _ (by decide)) (s.originRow_add_spriteRows_le y n)

theorem flagByte_eq_one_iff (c : Bool) : flagByte c = 1 ↔ c = true := by
  cases c <;> decide

theorem flagByte_one_or_zero (c : Bool) : flagByte c = 1 ∨ flagByte c = 0 := by
  cases c <;> decide

/-- After a draw `VF` tells the collision. -/
theorem State.reg_F_after_draw (s : State) (flag : Byte) (d : Display) :
    ((s.setReg regF flag).setDisplay d).reg 0xF = flag :=
  s.reg_setReg_same regF flag

/-- Settles O40: the rows are drawn pixel by pixel, and the rows that are dropped lie below the
screen. -/
theorem drawIsPixelXor : Obligations.DrawIsPixelXor := by
  unfold Obligations.DrawIsPixelXor
  intro x y n s
  refine ⟨_, exec_drw x y n s, fun px py hpx hpy => ?_, ?_, ?_, fun z hz => ?_, rfl⟩
  · rw [State.setDisplay_display, State.drawn_pixel s x y n py hpx, ← State.spriteAt_iff s x y n hpy]
    cases s.display.pixel px py <;> cases s.spriteAt x y n px py <;> decide
  · rw [State.reg_F_after_draw]
    exact flagByte_one_or_zero _
  · rw [State.reg_F_after_draw, flagByte_eq_one_iff, State.drawn_collides]
    refine exists₂_congr fun px py => and_congr_right fun _ => and_congr_right fun hpy => ?_
    rw [State.spriteAt_iff s x y n hpy]
  · exact s.reg_setReg_other _ hz

/-! ### Drawing twice -/

/-- What is drawn where depends on the two coordinates, `I` and memory alone. -/
theorem State.spriteAt_congr {s t : State} {x y : Nibble} (hx : t.reg x = s.reg x)
    (hy : t.reg y = s.reg y) (hi : t.i = s.i) (hfont : t.font = s.font) (hmem : t.mem = s.mem)
    (n : Nibble) (px py : Nat) : t.spriteAt x y n px py = s.spriteAt x y n px py := by
  have hread : t.memRead = s.memRead := funext (State.memRead_congr hfont hmem)
  simp only [State.spriteAt, State.spriteRows, State.loadBytes, hx, hy, hi, hread]

/-- Settles O41: the second draw toggles the same pixels, and meets a lit one where the first found
it dark. -/
theorem drawTwiceRestoresDisplay : Obligations.DrawTwiceRestoresDisplay := by
  unfold Obligations.DrawTwiceRestoresDisplay
  intro x y n s t u ht hx hy hu
  rw [exec_drw] at ht hu
  cases ht
  cases hu
  have hsame := State.spriteAt_congr hx hy rfl rfl rfl n
  constructor
  · apply Display.ext_pixel
    intro px hpx py _
    rw [State.setDisplay_display, State.drawn_pixel _ x y n py hpx, hsame, State.setDisplay_display,
      State.drawn_pixel s x y n py hpx, Bool.xor_assoc, Bool.xor_self, Bool.xor_false]
  · rw [State.reg_F_after_draw, flagByte_eq_one_iff, State.drawn_collides]
    refine exists₂_congr fun px py => and_congr_right fun hpx => and_congr_right fun hpy => ?_
    rw [hsame, ← State.spriteAt_iff s x y n hpy, State.setDisplay_display,
      State.drawn_pixel s x y n py hpx]
    cases s.display.pixel px py <;> cases s.spriteAt x y n px py <;> decide

end Sys2Proof.Machine
end
